-- ==== Sys2Proof/Word.lean ====
section
/-! DEFINITION. The words of the block: bytes and 40-bit request words (00_scope.md R4, R5). -/

namespace Sys2Proof

/-- A byte, bits 7 down to 0, bit 0 the least significant (00_scope.md R5). -/
abbrev Byte := BitVec 8

/-- A request word `req[39:0]` (30_encoding.md R50). -/
abbrev Word := BitVec 40

end Sys2Proof
end

