-- ==== Sys2Proof/Syntax.lean ====
section
/-! DEFINITION. The instructions: one constructor per row of spec/opcode_table.json. -/

namespace Sys2Proof

/-- The eight fields of an A-format word, at the widths of 30_encoding.md R52. -/
structure Selection where
  blink      : Bool
  digitValid : Bool
  dir        : BitVec 2
  band       : BitVec 4
  strength   : BitVec 4
  digit      : BitVec 4
  mainVol    : BitVec 8
  muteVol    : BitVec 8
deriving DecidableEq, Repr

/-- One constructor per row of spec/opcode_table.json (30_encoding.md R53, R66). The fields keep every bit of the
encoding, the ignored ones too, because ACCEPT latches the word whole (10_state.md R12). -/
inductive Instr where
  /-- FRAME, F-format (30_encoding.md R51). -/
  | frame (dest src msg plen : BitVec 8)
  /-- ALERT, A-format (30_encoding.md R52). -/
  | alert (sel : Selection)
  /-- PKT.HDR, the wire pattern of the first five bytes of a packet (30_encoding.md R59): the low nibbles of the
  address bytes, the message id, the length byte. -/
  | pktHdr (dest src : BitVec 4) (msg len : BitVec 8)
  /-- PKT.ALERT, the wire pattern of the alert packet (30_encoding.md R61). -/
  | pktAlert (digit1 digit2 bar band1 band2 vol cksum : BitVec 8)
deriving DecidableEq, Repr

/-- Why a list of request words decodes to no instruction. -/
inductive DecodeError where
  /-- No word is offered. -/
  | noWord
  /-- The operation byte `op` is reserved (30_encoding.md R53) and no wire pattern matches either. -/
  | illegalOp (op : BitVec 8)
deriving DecidableEq, Repr

end Sys2Proof
end

