-- ==== Sys2Proof/Decode.lean ====
section
/-! DEFINITION. The decoder, total on any words, and after it the encoder, both from the field positions of
30_encoding.md R51, R52, R59, R61. -/

namespace Sys2Proof

/-- `v[hi:lo]` of a request word (00_scope.md R5), as `width = hi - lo + 1` bits. -/
def bits (lo width : Nat) (w : Word) : BitVec width := w.extractLsb' lo width

/-- The A-format fields of a word (30_encoding.md R52). -/
def selectionOf (w : Word) : Selection where
  blink      := w.getLsbD 31
  digitValid := w.getLsbD 30
  dir        := bits 28 2 w
  band       := bits 24 4 w
  strength   := bits 20 4 w
  digit      := bits 16 4 w
  mainVol    := bits 8 8 w
  muteVol    := bits 0 8 w

/-- One 40-bit word. FRAME and ALERT by the operation byte alone (30_encoding.md R50, R53); PKT.HDR by its match
and mask (R59, R66); any other word is rejected by the name of its operation byte. -/
def decodeWord (w : Word) : Except DecodeError Instr :=
  if bits 32 8 w = 0x01#8 then
    .ok (.frame (bits 24 8 w) (bits 16 8 w) (bits 8 8 w) (bits 0 8 w))
  else if bits 32 8 w = 0x02#8 then
    .ok (.alert (selectionOf w))
  else if bits 32 8 w = 0xAA#8 ∧ bits 28 4 w = 0xD#4 ∧ bits 20 4 w = 0xE#4 then
    .ok (.pktHdr (bits 24 4 w) (bits 16 4 w) (bits 8 8 w) (bits 0 8 w))
  else
    .error (.illegalOp (bits 32 8 w))

/-- The 120-bit pattern of PKT.ALERT as three 40-bit words, the packet's bytes five to a word, index 0 leftmost
(30_encoding.md R61, R66). -/
def isAlertWire (w0 w2 : Word) : Bool :=
  w0 == 0xAAD8EA3109#40 && bits 24 16 w2 == 0x5000#16 && bits 0 8 w2 == 0xAB#8

/-- The instruction at the head of the words on offer. Three words that spell an alert packet are PKT.ALERT, the
longest match (log 8); otherwise the first word alone decides. -/
def decode : List Word → Except DecodeError Instr
  | [] => .error .noWord
  | [w0] => decodeWord w0
  | [w0, _] => decodeWord w0
  | w0 :: w1 :: w2 :: _ =>
    if isAlertWire w0 w2 then
      .ok (.pktAlert (bits 32 8 w1) (bits 24 8 w1) (bits 16 8 w1) (bits 8 8 w1) (bits 0 8 w1)
        (bits 16 8 w2) (bits 8 8 w2))
    else decodeWord w0

/-- The low 32 bits of an A-format word. -/
def selectionBits (sel : Selection) : BitVec 32 :=
  BitVec.ofBool sel.blink ++ BitVec.ofBool sel.digitValid ++ sel.dir ++ sel.band ++ sel.strength ++ sel.digit
    ++ sel.mainVol ++ sel.muteVol

/-- The first 40-bit word of an instruction: the whole of FRAME, ALERT and PKT.HDR, the first five bytes of
PKT.ALERT. It is the word the request port carries when the instruction is offered. -/
def requestWord : Instr → Word
  | .frame dest src msg plen => 0x01#8 ++ (dest ++ src ++ msg ++ plen)
  | .alert sel => 0x02#8 ++ selectionBits sel
  | .pktHdr dest src msg len => 0xAA#8 ++ (0xD#4 ++ dest ++ 0xE#4 ++ src ++ msg ++ len)
  | .pktAlert _ _ _ _ _ _ _ => 0xAAD8EA3109#40

/-- The words of an instruction. -/
def encode : Instr → List Word
  | .pktAlert d1 d2 bar b1 b2 vol ck =>
      [0xAAD8EA3109#40, d1 ++ d2 ++ bar ++ b1 ++ b2, 0x50#8 ++ 0x00#8 ++ vol ++ ck ++ 0xAB#8]
  | i => [requestWord i]

/-- The words of a row of spec/opcode_table.json whose bits are the number `w`. The table writes a pattern as one
number, packet index 0 (bit 39 of a request) leftmost (30_encoding.md R66), so the first word of a 120-bit
pattern is its top 40 bits (log 15). -/
def tableWords (nbits w : Nat) : List Word :=
  if nbits ≤ 40 then [BitVec.ofNat 40 w]
  else [BitVec.ofNat 40 (w >>> 80), BitVec.ofNat 40 (w >>> 40), BitVec.ofNat 40 w]

/-- What the decoder reads from a row's bits. -/
def decodeTableWord (nbits w : Nat) : Option Instr :=
  match decode (tableWords nbits w) with
  | .ok i => some i
  | .error _ => none

end Sys2Proof
end

