-- ==== Sys2Proof/Config.lean ====
section
/-! DEFINITION. What the spec leaves open: the values nothing in it fixes, as constants without a body, so that
no proof can see one. 00_scope.md R4: the block itself has no open parameter. -/

namespace Sys2Proof.Config

/-- What register `rq` holds after the `n`-th free draw, at a RESET step (70_reset_and_hazards.md R170,
10_state.md R20 "unspecified"). DESIGN CHOICE, log 3; safe. -/
opaque resetRq : Nat → BitVec 40

/-- What register `idx` holds after a RESET step (R170, R20). DESIGN CHOICE, log 3; safe. -/
opaque resetIdx : Nat → BitVec 9

/-- What register `sum` holds after a RESET step (R170, R20). DESIGN CHOICE, log 3; safe. -/
opaque resetSum : Nat → BitVec 8

/-- What register `fcode` holds after a RESET step (R170, R20). DESIGN CHOICE, log 3; safe. -/
opaque resetFcode : Nat → BitVec 3

/-- The byte an EMIT-BYTE step sends where 42_sequencer.md R134 has no case for `idx`. Only states that no run
from a RESET reaches have such an `idx` (R137, R171). DESIGN CHOICE, log 9; safe. -/
opaque strayByte : Nat → BitVec 8

/-- What `idx` holds after an EMIT-BYTE step at index 511, where `idx + 1` does not fit: 10_state.md R13 says that
`idx` never wraps and gives no value there. Only states that no run from a RESET reaches have such an `idx` (R137,
R171). DESIGN CHOICE, log 9; safe. -/
opaque strayIdx : Nat → BitVec 9

/-- The effective operand `D` where 42_sequencer.md R135 has no column: `fcode` is 0 and the latched word is
neither FRAME nor ALERT, which only a state before the first RESET can be (R171). DESIGN CHOICE, log 9; safe. -/
opaque strayDest : BitVec 40 → BitVec 8

/-- The effective operand `S` where R135 has no column. DESIGN CHOICE, log 9; safe. -/
opaque straySrc : BitVec 40 → BitVec 8

/-- The effective operand `M` where R135 has no column. DESIGN CHOICE, log 9; safe. -/
opaque strayMsg : BitVec 40 → BitVec 8

/-- The effective operand `L` where R135 has no column. DESIGN CHOICE, log 9; safe. -/
opaque strayLen : BitVec 40 → BitVec 8

/-- What a payload address that the host has not written reads as. 20_memory.md R39: no read can fault; the spec
gives no content. DESIGN CHOICE, log 6; unsafe. -/
def unlistedByte : Byte := 0x00

end Sys2Proof.Config
end

