-- ==== Sys2Proof/Machine/State.lean ====
section
/-! DEFINITION. The state of the machine: the block's five registers, the host's side of the ports, the trace. -/

namespace Sys2Proof.Machine

open Sys2Proof

/-- The whole state of the block, 61 bits (10_state.md R10). -/
structure Block where
  /-- An operation is in flight (R11). -/
  busy  : Bool
  /-- The latched request word (R12). -/
  rq    : Word
  /-- The packet index of the next byte to hand out (R13). -/
  idx   : BitVec 9
  /-- The running checksum (R14). -/
  sum   : Byte
  /-- The fault code of the operation in flight, 0 for none (R15). -/
  fcode : BitVec 3
deriving DecidableEq, Repr

/-- The payload space (20_memory.md R30): the bytes that differ from `Config.unlistedByte`, addresses rising. -/
abbrev Memory := List Host.Cell

/-- A beat of the response channel (30_encoding.md R63). -/
structure Beat where
  fault : Bool
  data  : Byte
  last  : Bool
deriving DecidableEq, Repr

/-- The events of a trace (42_sequencer.md R139). -/
inductive Event where
  | reset
  | accept (r : Word)
  | read (a : BitVec 8) (v : Byte)
  | beat (b : Beat)
deriving DecidableEq, Repr

/-- What the host can do between two steps of the block (42_sequencer.md R130). -/
inductive HostMove where
  /-- Put these words on offer, the first on `req`; the empty list withdraws the offer (70_reset_and_hazards.md
  R175). -/
  | offer (rs : List Word)
  /-- Drive `out_ready` (70_reset_and_hazards.md R176). -/
  | ready (b : Bool)
  /-- Drive `rst` (70_reset_and_hazards.md R170). -/
  | reset (b : Bool)
  /-- Change a byte of the payload space (20_memory.md R36). -/
  | store (a : BitVec 8) (v : Byte)
deriving DecidableEq, Repr

/-- Who moves: the block under the pins as they stand, or the host (log 4). -/
inductive Turn where
  | block
  | host (m : HostMove)
deriving DecidableEq, Repr

/-- The host's side: inputs of the block's steps, no state of the block (10_state.md R25; log 4). -/
structure HostSide where
  /-- The words on offer, the first on `req` now; `req_valid` is 1 exactly when there is one. -/
  requests : List Word
  /-- The `out_ready` pin. -/
  outReady : Bool
  /-- The `rst` pin. -/
  rst      : Bool
  /-- The payload space. -/
  payload  : Memory
  /-- The turns to come, soonest first; when there is none the block moves. The model's own. -/
  turns    : List Turn
deriving DecidableEq, Repr

/-- The machine: the block, the host's side, what has been observed (42_sequencer.md R139; log 12), and how many
free values have been drawn (the model's own; log 16). -/
structure State where
  block : Block
  host  : HostSide
  trace : List Event
  drawn : Nat
deriving DecidableEq, Repr

/-- Reasons to stop with a fault. There is none: the block's faults are beats (60_exceptions.md R150, R152), and "the
block itself never gets stuck and never enters a state it cannot leave" (R159). Log 14; safe, since nothing is
left out. -/
inductive Fault where
deriving DecidableEq, Repr

/-- Reasons to refuse. -/
inductive Refusal where
  /-- An arm of `exec` that has no meaning yet raises it, with the row's mnemonic. No arm does. Safe. -/
  | notModelled (mnemonic : String)
deriving DecidableEq, Repr

/-- The state with another block. -/
def State.withBlock (s : State) (b : Block) : State := { s with block := b }

/-- The state with another host side. -/
def State.withHost (s : State) (h : HostSide) : State := { s with host := h }

/-- The state after these events. -/
def State.observe (s : State) (es : List Event) : State := { s with trace := s.trace ++ es }

/-- The state after `n` free values have been drawn. -/
def State.draw (s : State) (n : Nat) : State := { s with drawn := s.drawn + n }

/-- The state with these turns to come. -/
def State.withTurns (s : State) (ts : List Turn) : State := { s with host := { s.host with turns := ts } }

/-- The state with these words on offer. -/
def State.withRequests (s : State) (rs : List Word) : State := { s with host := { s.host with requests := rs } }

/-- The machine right after its RESET step (10_state.md R20, 70_reset_and_hazards.md R170, R171): idle, nothing on
offer. `rq`, `idx`, `sum`, `fcode` are unspecified by R20: DESIGN CHOICE 0, log 2; unsafe. The host's side: DESIGN
CHOICE, logs 5 and 6; unsafe. -/
def State.reset : State where
  block := { busy := false, rq := 0, idx := 0, sum := 0, fcode := 0 }
  host  := { requests := [], outReady := true, rst := false, payload := [], turns := [] }
  trace := [.reset]
  drawn := 0

end Sys2Proof.Machine
end

