-- ==== Sys2Proof/Machine/Operands.lean ====
section
/-! DEFINITION. The operand forms: the fixed bytes, the ALERT payload byte by byte, and the effective operands of the
operation in flight. -/

namespace Sys2Proof.Machine

open Sys2Proof

/-! Fixed bytes (00_scope.md R4). -/

def sof : Byte := 0xAA
def eof : Byte := 0xAB
def destHi : Byte := 0xD0
def srcHi : Byte := 0xE0
def alertDest : Byte := 0x08
def alertSrc : Byte := 0x0A
def alertMsg : Byte := 0x31
def alertReserved5 : Byte := 0x50
def alertReserved6 : Byte := 0x00
def maxStrength : BitVec 4 := 8#4
/-- The largest payload length, `MAXP`. -/
def maxPayload : Nat := 254
/-- The bytes of a packet that are not payload. -/
def overhead : Nat := 7

/-! Address bytes (30_encoding.md R60). -/

/-- `0xD0 | (dest & 0xF)`. -/
def destByte (dest : Byte) : Byte := destHi ||| (dest &&& 0x0F)

/-- `0xE0 | (src & 0xF)`. -/
def srcByte (src : Byte) : Byte := srcHi ||| (src &&& 0x0F)

/-! The digit images. -/

/-- The seven-segment table `Seg`, defined on 0 to 9 only (41_alert.md R101). -/
def seg (digit : BitVec 4) : Option Byte :=
  [0x3F, 0x06, 0x5B, 0x4F, 0x66, 0x6D, 0x7D, 0x07, 0x7F, 0x6F][digit.toNat]?

/-- `has_digit` (41_alert.md R102). -/
def hasDigit (digitValid : Bool) (digit : BitVec 4) : Bool := digitValid && decide (digit ≤ 9#4)

/-- `digit_image1` (41_alert.md R103). -/
def digitImage1 (digitValid : Bool) (digit : BitVec 4) : Byte :=
  if hasDigit digitValid digit then (seg digit).getD 0x00 else 0x00

/-- `digit_image2`, the digit half of the blink-state multiplexer (41_alert.md R104). -/
def digitImage2 (blink digitValid : Bool) (digit : BitVec 4) : Byte :=
  if blink && hasDigit digitValid digit then 0x00 else digitImage1 digitValid digit

/-! The band images. -/

/-- `BandBit` of the bit-map table (41_alert.md R105); a reserved code has none (R115). -/
def bandBit (band : BitVec 4) : Option Byte :=
  if band = 0#4 then some 0x00
  else if band ≤ 4#4 then some (BitVec.ofNat 8 (1 <<< (band.toNat - 1)))
  else none

/-- `DirBit` of the bit-map table (41_alert.md R105). -/
def dirBit (dir : BitVec 2) : Byte :=
  if dir = 0#2 then 0x00 else BitVec.ofNat 8 (1 <<< (dir.toNat + 4))

/-- `band_image1` (41_alert.md R106). -/
def bandImage1 (band : BitVec 4) (dir : BitVec 2) : Option Byte :=
  (bandBit band).map (· ||| dirBit dir)

/-- `band_image2`, the band half of the blink-state multiplexer (41_alert.md R107). -/
def bandImage2 (blink : Bool) (image1 : Byte) : Byte := if blink then 0x00 else image1

/-! Strength and volume. -/

/-- `Bar(s) = (1 << s) - 1` for `s` in 0 to 8 (41_alert.md R108); no bar outside (R109). -/
def bar (strength : BitVec 4) : Option Byte :=
  if strength ≤ maxStrength then some (BitVec.ofNat 8 ((1 <<< strength.toNat) - 1)) else none

/-- `((main_vol & 0xF) << 4) | (mute_vol & 0xF)` (41_alert.md R110, 00_scope.md R6). -/
def volumeByte (mainVol muteVol : Byte) : Byte := ((mainVol &&& 0x0F) <<< 4) ||| (muteVol &&& 0x0F)

/-- `AlertPayload(sel)`, eight bytes (41_alert.md R112), for `band <= 4` and `strength <= 8`. -/
def alertPayload (sel : Selection) : Option (List Byte) :=
  match bandImage1 sel.band sel.dir, bar sel.strength with
  | some image1, some strengthBar =>
      some [digitImage1 sel.digitValid sel.digit, digitImage2 sel.blink sel.digitValid sel.digit, strengthBar,
        image1, bandImage2 sel.blink image1, alertReserved5, alertReserved6, volumeByte sel.mainVol sel.muteVol]
  | _, _ => none

/-! Effective operands (42_sequencer.md R135). -/

/-- Where the payload bytes `P(i)` come from. -/
inductive PayloadSource where
  /-- The payload port: `MemRead(i, 1)`, in the step that emits it. -/
  | port
  /-- Bytes computed from the latched word. -/
  | fixed (bytes : List Byte)
  /-- Not given by the spec. -/
  | unstated
deriving DecidableEq, Repr

/-- The effective operands `D, S, M, L, P`. -/
structure Operands where
  dest    : Byte
  src     : Byte
  msg     : Byte
  len     : Nat
  payload : PayloadSource
deriving DecidableEq, Repr

/-- The FRAME column of R135. -/
def frameOperands (dest src msg plen : Byte) : Operands :=
  { dest := dest, src := src, msg := msg, len := plen.toNat, payload := .port }

/-- The ALERT column of R135. A selection that `Check` faults has no payload (41_alert.md R109, R115); no byte of it is
ever asked for in a run that starts with a RESET (42_sequencer.md R137). -/
def alertOperands (sel : Selection) : Operands :=
  { dest := alertDest, src := alertSrc, msg := alertMsg, len := 8,
    payload := match alertPayload sel with
      | some p => .fixed p
      | none => .unstated }

/-- A latched word that is no operation has no column in R135: free values (log 9). Read only when such a word is in
flight with `fcode` 0, which only a state before the first RESET can be. -/
def strayOperands (rq : Word) : Operands :=
  { dest := Config.strayDest rq, src := Config.straySrc rq, msg := Config.strayMsg rq,
    len := (Config.strayLen rq).toNat, payload := .unstated }

/-- The effective operands of a latched word, for the outputs that show them while it is in flight (10_state.md
R22). -/
def operandsOf (rq : Word) : Operands :=
  match decodeWord rq with
  | .ok (.frame dest src msg plen) => frameOperands dest src msg plen
  | .ok (.alert sel) => alertOperands sel
  | _ => strayOperands rq

end Sys2Proof.Machine
end

