-- ==== Sys2Proof/Machine/Flags.lean ====
section
/-! DEFINITION. The status the block computes: the fault code. It has no arithmetic flags (10_state.md R24). -/

namespace Sys2Proof.Machine

open Sys2Proof

/-- The faults of 60_exceptions.md R150. -/
inductive FaultCause where
  | illegalOp
  | reservedField
  | strengthRange
  | plenRange
deriving DecidableEq, Repr

/-- The codes of R150. -/
def faultCode : FaultCause → BitVec 3
  | .illegalOp => 1
  | .reservedField => 2
  | .strengthRange => 3
  | .plenRange => 4

/-- What `Check` finds wrong with a request word, `none` if nothing: 42_sequencer.md R132, the order of the tests being
the priority of 60_exceptions.md R151. -/
def checkCause (r : Word) : Option FaultCause :=
  if bits 32 8 r = 0x01#8 then
    if bits 0 8 r = 255#8 then some .plenRange else none
  else if bits 32 8 r = 0x02#8 then
    if 5#4 ≤ bits 24 4 r then some .reservedField
    else if 9#4 ≤ bits 20 4 r then some .strengthRange
    else none
  else some .illegalOp

/-- `Check(r)`, the code written to `fcode` (42_sequencer.md R132). -/
def check (r : Word) : BitVec 3 :=
  match checkCause r with
  | some c => faultCode c
  | none => 0

end Sys2Proof.Machine
end

