-- ==== Sys2Proof/Machine/Ops.lean ====
section
/-! DEFINITION. The named operations: the payload space, and the steps ACCEPT, EMIT-FAULT, EMIT-BYTE, RESET. -/

namespace Sys2Proof.Machine

open Sys2Proof

/-! The payload space (20_memory.md R30). -/

/-- The byte at an address. -/
def Memory.read : Memory → Nat → Byte
  | [], _ => Config.unlistedByte
  | (b, v) :: rest, a => if a = b then v else Memory.read rest a

/-- The space with one byte changed, in canonical form. Only the host writes (R30). -/
def Memory.write : Memory → Nat → Byte → Memory
  | [], a, v => if v = Config.unlistedByte then [] else [(a, v)]
  | (b, w) :: rest, a, v =>
    if a < b then (if v = Config.unlistedByte then (b, w) :: rest else (a, v) :: (b, w) :: rest)
    else if a = b then (if v = Config.unlistedByte then rest else (a, v) :: rest)
    else (b, w) :: Memory.write rest a v

/-- The canonical form: addresses rise, fit eight bits, and no listed byte is the unlisted one. -/
abbrev Memory.wf (m : Memory) : Prop :=
  m.Pairwise (fun c d => c.1 < d.1) ∧ ∀ c ∈ m, c.1 < 256 ∧ c.2 ≠ Config.unlistedByte

/-! What the packet holds at an index (42_sequencer.md R134). -/

/-- The byte at one index of the packet: computed, read at a payload address, or not given by the spec. -/
inductive Slot where
  | value (b : Byte)
  | read (a : BitVec 8)
  | unstated
deriving DecidableEq, Repr

/-- `P(i)` (R135). The port is driven at addresses 0 to 253 only (20_memory.md R31, R35). -/
def payloadSlot (p : PayloadSource) (i : Nat) : Slot :=
  match p with
  | .port => if i < maxPayload then .read (BitVec.ofNat 8 i) else .unstated
  | .fixed bytes => match bytes[i]? with
    | some b => .value b
    | none => .unstated
  | .unstated => .unstated

/-- The case analysis of R134 at index `k`, with the running checksum `sum`. The length byte is never a wrapped value
(40_frame.md R89). -/
def packetSlot (o : Operands) (sum : Byte) (k : Nat) : Slot :=
  if k = 0 then .value sof
  else if k = 1 then .value (destByte o.dest)
  else if k = 2 then .value (srcByte o.src)
  else if k = 3 then .value o.msg
  else if k = 4 then (if o.len ≤ maxPayload then .value (BitVec.ofNat 8 (o.len + 1)) else .unstated)
  else if k ≤ 4 + o.len then payloadSlot o.payload (k - 5)
  else if k = 5 + o.len then .value sum
  else if k = 6 + o.len then .value eof
  else .unstated

/-- The byte a slot yields in this state. -/
def slotByte (s : State) : Slot → Byte
  | .value b => b
  | .read a => Memory.read s.host.payload a.toNat
  | .unstated => Config.strayByte s.drawn

/-- The payload address a slot drives on `pl_addr`. -/
def Slot.address : Slot → Option (BitVec 8)
  | .read a => some a
  | _ => none

/-- The payload read a slot makes, as the trace shows it (42_sequencer.md R139). -/
def slotReads (s : State) : Slot → List Event
  | .read a => [.read a (Memory.read s.host.payload a.toNat)]
  | _ => []

/-- How many free values a slot draws. -/
def slotDraws : Slot → Nat
  | .unstated => 1
  | _ => 0

/-! The steps. -/

/-- ACCEPT (42_sequencer.md R131). It is also the entry of a fault (60_exceptions.md R152): the code is written to
`fcode`, everything else as for any request; nothing else is saved and control goes nowhere. -/
def accept (r : Word) (s : State) : State :=
  (s.withBlock { busy := true, rq := r, idx := 0, sum := 0, fcode := check r }).observe [.accept r]

/-- EMIT-FAULT (42_sequencer.md R133), the return from a fault (60_exceptions.md R153): one beat, then idle. -/
def emitFault (s : State) : State :=
  (s.withBlock { s.block with busy := false }).observe
    [.beat { fault := true, data := s.block.fcode.setWidth 8, last := true }]

/-- `idx + 1`. At 511, which no operation that was accepted reaches, the sum does not fit and 10_state.md R13 gives no
value: a free value, DESIGN CHOICE, log 9. -/
def nextIdx (s : State) : BitVec 9 := if s.block.idx = 511#9 then Config.strayIdx s.drawn else s.block.idx + 1

/-- `idx == N - 1`, on the value of `idx` at the start of the step. -/
def isLast (o : Operands) (k : Nat) : Bool := k == o.len + overhead - 1

/-- EMIT-BYTE (42_sequencer.md R134) with effective operands `o`. In states that only precede the first RESET the
values it does not give are free (log 9). -/
def emitByte (o : Operands) (s : State) : State :=
  let k := s.block.idx.toNat
  let slot := packetSlot o s.block.sum k
  let b := slotByte s slot
  ((s.withBlock
      { s.block with
        sum := if k ≤ 4 + o.len then s.block.sum + b else s.block.sum
        idx := nextIdx s
        busy := if isLast o k then false else s.block.busy }).observe
    (slotReads s slot ++ [.beat { fault := false, data := b, last := isLast o k }])).draw (slotDraws slot)

/-- The next step of the block for an operation with request word `r` and effective operands `o`, the host
consenting: ACCEPT when idle, else EMIT-FAULT or EMIT-BYTE by `fcode`. The guards exclude each other
(42_sequencer.md R130, R141). -/
def runOperation (r : Word) (o : Operands) (s : State) : State :=
  if s.block.busy = false then accept r s
  else if s.block.fcode = 0 then emitByte o s
  else emitFault s

/-- RESET (70_reset_and_hazards.md R170). The four registers R20 calls unspecified take free values (log 3). -/
def resetStep (s : State) : State :=
  ((s.withBlock
      { busy := false, rq := Config.resetRq s.drawn, idx := Config.resetIdx s.drawn,
        sum := Config.resetSum s.drawn, fcode := Config.resetFcode s.drawn }).observe [.reset]).draw 1

/-- A move of the host (42_sequencer.md R130): it touches the host's side only. -/
def hostMove (m : HostMove) (s : State) : State :=
  match m with
  | .offer rs => s.withRequests rs
  | .ready b => s.withHost { s.host with outReady := b }
  | .reset b => s.withHost { s.host with rst := b }
  | .store a v => s.withHost { s.host with payload := Memory.write s.host.payload a.toNat v }

end Sys2Proof.Machine
end

