-- ==== Sys2Proof/Machine/Alert.lean ====
section
/-! DEFINITION. The meaning of ALERT. -/

namespace Sys2Proof.Machine

open Sys2Proof

/-- The next step of an ALERT operation (41_alert.md R100): ACCEPT with fault 2 (R115) or 3 (R109), then the 15 beats
of the alert packet (R113), or the fault beat. The payload port stays idle. Log 1. -/
def execAlert (sel : Selection) (s : State) : Host.Outcome State Fault Refusal :=
  .next (runOperation (requestWord (.alert sel)) (alertOperands sel) s)

end Sys2Proof.Machine
end

