-- ==== Sys2Proof/Machine/Frame.lean ====
section
/-! DEFINITION. The meaning of FRAME. -/

namespace Sys2Proof.Machine

open Sys2Proof

/-- The next step of a FRAME operation (40_frame.md R81): ACCEPT with fault 4 at `plen = 255` (R87), then the beats of
the packet, payload bytes read at the step that sends them, or the fault beat. Log 1. -/
def execFrame (dest src msg plen : BitVec 8) (s : State) : Host.Outcome State Fault Refusal :=
  .next (runOperation (requestWord (.frame dest src msg plen)) (frameOperands dest src msg plen) s)

end Sys2Proof.Machine
end

