-- ==== Sys2Proof/Machine/Wire.lean ====
section
/-! DEFINITION. Words at the request port that are no operation: the two wire patterns, and reserved operation
codes. 42_sequencer.md R131: every 40-bit word is accepted and a bad one is answered with a fault beat. -/

namespace Sys2Proof.Machine

open Sys2Proof

/-- A word with a reserved operation code (30_encoding.md R53): accepted with fault 1, then its fault beat. -/
def runIllegal (r : Word) (s : State) : Host.Outcome State Fault Refusal :=
  .next (runOperation r (strayOperands r) s)

/-- The first five bytes of a packet offered as a request word: its operation byte is `0xAA`, so it is ILLEGAL_OP
(30_encoding.md R53, 60_exceptions.md R150). Log 7. -/
def execPktHdr (dest src : BitVec 4) (msg len : BitVec 8) (s : State) : Host.Outcome State Fault Refusal :=
  let r := requestWord (.pktHdr dest src msg len)
  .next (runOperation r (strayOperands r) s)

/-- An alert packet offered as three request words: the port carries 40 bits, so the first word, `AA D8 EA 31 09`, is
accepted and is ILLEGAL_OP; the other two stay on offer. Log 8. -/
def execPktAlert (digit1 digit2 bar band1 band2 vol cksum : BitVec 8) (s : State) :
    Host.Outcome State Fault Refusal :=
  let r := requestWord (.pktAlert digit1 digit2 bar band1 band2 vol cksum)
  .next (runOperation r (strayOperands r) s)

end Sys2Proof.Machine
end

