-- ==== Sys2Proof/Machine/Dispatch.lean ====
section
/-! DEFINITION. One arm per instruction. -/

namespace Sys2Proof.Machine

open Sys2Proof

/-- The next step of operation `i`, the host consenting (log 1). -/
def exec (i : Instr) (s : State) : Host.Outcome State Fault Refusal :=
  match i with
  | .frame dest src msg plen => Sys2Proof.Machine.execFrame dest src msg plen s
  | .alert sel => Sys2Proof.Machine.execAlert sel s
  | .pktHdr dest src msg len => Sys2Proof.Machine.execPktHdr dest src msg len s
  | .pktAlert d1 d2 bar b1 b2 vol ck => Sys2Proof.Machine.execPktAlert d1 d2 bar b1 b2 vol ck s

end Sys2Proof.Machine
end

