-- ==== Sys2Proof/Machine/Sequencer.lean ====
section
/-! DEFINITION. Which step the block takes under the pins as they stand. -/

namespace Sys2Proof.Machine

open Sys2Proof

/-- The block takes the word on `req`: the instruction at the head of the offered words, or a reserved code; the
word taken leaves the offer (70_reset_and_hazards.md R175). -/
def acceptOffer (r : Word) (rest : List Word) (s : State) : Host.Outcome State Fault Refusal :=
  match decode (r :: rest) with
  | .ok i => exec i (s.withRequests rest)
  | .error _ => runIllegal r (s.withRequests rest)

/-- The next beat of the operation in flight, its operands read from `rq` (10_state.md R12). -/
def continueInFlight (s : State) : Host.Outcome State Fault Refusal :=
  match decodeWord s.block.rq with
  | .ok i => exec i s
  | .error _ => runIllegal s.block.rq s

/-- The block's turn: RESET while `rst` is asserted, and nothing else then (70_reset_and_hazards.md R170); an EMIT step
when busy and the host takes the beat; ACCEPT when idle and a word is on offer (10_state.md R22). Otherwise the
block waits for the host and nothing changes (log 11). -/
def blockTurn (s : State) : Host.Outcome State Fault Refusal :=
  if s.host.rst then .next (resetStep s)
  else if s.block.busy then
    if s.host.outReady then continueInFlight s else .next s
  else match s.host.requests with
    | [] => .next s
    | r :: rest => acceptOffer r rest s

/-- One step: the agent whose turn it is moves (log 4). -/
def takeTurn (s : State) : Host.Outcome State Fault Refusal :=
  match s.host.turns with
  | [] => blockTurn s
  | .block :: ts => blockTurn (s.withTurns ts)
  | .host m :: ts => .next (hostMove m (s.withTurns ts))

/-- `s` with these words on offer to an idle block whose turn it is. -/
def placeOffer (ws : List Word) (s : State) : State :=
  { s with
    block := { s.block with busy := false }
    host := { s.host with requests := ws, rst := false, turns := .block :: s.host.turns } }

end Sys2Proof.Machine
end

