-- ==== Sys2Proof/Machine/Step.lean ====
section
/-! DEFINITION. The step, and where it fetches. -/

namespace Sys2Proof.Machine

open Sys2Proof

/-- One step of the machine: one event, or a wait, or one move of the host (00_scope.md R9, 42_sequencer.md R130). -/
def step (s : State) : Host.Outcome State Fault Refusal := takeTurn s

/-- `s` with an instruction's words on offer at the request port, to an idle block whose turn it is: the program is
loaded from outside the machine (log 4). -/
def State.withFetchWord (s : State) (nbits w : Nat) : State := placeOffer (tableWords nbits w) s

end Sys2Proof.Machine
end

