-- ==== Sys2Proof/Machine/Notation.lean ====
section
/-! DEFINITION. Writing requests down: the source's typed selection as a request, and a request as text
(30_encoding.md R52, R54, R55, R56, R64). -/

namespace Sys2Proof.Machine

open Sys2Proof

/-- The four bands (30_encoding.md R54). -/
inductive Band where
  | laser
  | ka
  | k
  | x
deriving DecidableEq, Repr

/-- The three directions (30_encoding.md R55). -/
inductive Direction where
  | front
  | side
  | rear
deriving DecidableEq, Repr

/-- The source's AlertSelection (00_scope.md glossary, 30_encoding.md R52). -/
structure AlertSelection where
  digit    : Option (BitVec 4)
  band     : Option Band
  dir      : Option Direction
  blink    : Bool
  strength : BitVec 4
  mainVol  : Byte
  muteVol  : Byte
deriving DecidableEq, Repr

/-- The band codes of 30_encoding.md R54. -/
def bandCode : Option Band → BitVec 4
  | none => 0
  | some .laser => 1
  | some .ka => 2
  | some .k => 3
  | some .x => 4

/-- The direction codes of 30_encoding.md R55. -/
def directionCode : Option Direction → BitVec 2
  | none => 0
  | some .front => 1
  | some .side => 2
  | some .rear => 3

/-- The ALERT request of a typed selection; no digit is `digit_valid = 0` with `digit = 0` (30_encoding.md R56,
R64). -/
def alertRequest (a : AlertSelection) : Instr :=
  .alert
    { blink := a.blink, digitValid := a.digit.isSome, dir := directionCode a.dir, band := bandCode a.band,
      strength := a.strength, digit := a.digit.getD 0, mainVol := a.mainVol, muteVol := a.muteVol }

/-- A band code in the notation of 30_encoding.md R64. -/
def bandText (c : BitVec 4) : String :=
  if c = 0#4 then "none"
  else if c = 1#4 then "LASER"
  else if c = 2#4 then "KA"
  else if c = 3#4 then "K"
  else if c = 4#4 then "X"
  else toString c.toNat

/-- A direction code in the notation of R64. -/
def directionText (c : BitVec 2) : String :=
  if c = 0#2 then "none"
  else if c = 1#2 then "FRONT"
  else if c = 2#2 then "SIDE"
  else "REAR"

/-- A request in the notation of R64, every field written out, numbers in decimal. `none` where R64 has no form: a wire
pattern, and an ALERT with `digit_valid = 0` and a nonzero `digit` (vector A6), since `digit=none` means `digit = 0`.
DESIGN CHOICE, log 22. -/
def requestText : Instr → Option String
  | .frame dest src msg plen =>
      some ("FRAME dest=" ++ toString dest.toNat ++ " src=" ++ toString src.toNat ++ " msg=" ++ toString msg.toNat
        ++ " plen=" ++ toString plen.toNat)
  | .alert sel =>
      if sel.digitValid = false ∧ sel.digit ≠ 0#4 then none
      else some ("ALERT digit=" ++ (if sel.digitValid then toString sel.digit.toNat else "none")
        ++ " band=" ++ bandText sel.band ++ " dir=" ++ directionText sel.dir
        ++ " blink=" ++ (if sel.blink then "1" else "0") ++ " strength=" ++ toString sel.strength.toNat
        ++ " main=" ++ toString sel.mainVol.toNat ++ " mute=" ++ toString sel.muteVol.toNat)
  | .pktHdr _ _ _ _ => none
  | .pktAlert _ _ _ _ _ _ _ => none

end Sys2Proof.Machine
end

