-- ==== Sys2Proof/Machine/Function.lean ====
section
/-! DEFINITION. The function level (00_scope.md R9): each operation as a pure function from its operands to a byte
sequence or a fault. Normative for every byte value; the steps do not call it. -/

namespace Sys2Proof.Machine

open Sys2Proof

/-- `Σ p`, not reduced (00_scope.md R7). -/
def sumBytes (p : List Byte) : Nat := (p.map BitVec.toNat).sum

/-- `Frame(dest, src, msg, p)` for naturals of any size (40_frame.md R80); not defined for `|p| >= 255` (R87). -/
def frame (dest src msg : Nat) (p : List Byte) : Option (List Byte) :=
  if p.length ≤ maxPayload then
    let header : List Byte :=
      [sof, BitVec.ofNat 8 (0xD0 ||| (dest &&& 0xF)), BitVec.ofNat 8 (0xE0 ||| (src &&& 0xF)),
        BitVec.ofNat 8 (msg &&& 0xFF), BitVec.ofNat 8 (p.length + 1)]
    let cs := (sumBytes header + sumBytes p) % 256
    some (header ++ p ++ [BitVec.ofNat 8 cs, eof])
  else none

/-- `AlertPacket(sel) = Frame(0x08, 0x0A, 0x31, AlertPayload(sel))` (41_alert.md R113). -/
def alertPacket (sel : Selection) : Option (List Byte) :=
  (alertPayload sel).bind (frame 0x08 0x0A 0x31)

/-- A packet as beats, `out_last` on the last byte only (30_encoding.md R63). -/
def packetBeats : List Byte → List Beat
  | [] => []
  | [b] => [{ fault := false, data := b, last := true }]
  | b :: c :: rest => { fault := false, data := b, last := false } :: packetBeats (c :: rest)

/-- The packet a request yields at function level, given the payload bytes a FRAME reads; `none` for a request that
`Check` faults (60_exceptions.md R159). -/
def packetOf (r : Word) (payload : List Byte) : Option (List Byte) :=
  if check r ≠ 0 then none
  else match decodeWord r with
    | .ok (.frame dest src msg _) => frame dest.toNat src.toNat msg.toNat payload
    | .ok (.alert sel) => alertPacket sel
    | _ => none

/-- The beats that answer a request (42_sequencer.md R138): one fault beat, or the packet. -/
def response (r : Word) (payload : List Byte) : List Beat :=
  if check r ≠ 0 then [{ fault := true, data := (check r).setWidth 8, last := true }]
  else match packetOf r payload with
    | some p => packetBeats p
    | none => []

/-- How many payload bytes an operation reads: `plen` for a FRAME that passes `Check`, none otherwise
(20_memory.md R34). -/
def payloadReads (r : Word) : Nat :=
  if check r ≠ 0 then 0
  else match decodeWord r with
    | .ok (.frame _ _ _ plen) => plen.toNat
    | _ => 0

/-- Where a reader of the byte stream finds the end of a packet: the byte at index 4 plus 6 (30_encoding.md R62; for
tests of the model only, the block receives nothing). -/
def wireLength (packet : List Byte) : Option Nat := packet[4]?.map (fun b => b.toNat + 6)

/-- Bytes as one number, index 0 leftmost, the way spec/opcode_table.json writes a packet pattern (30_encoding.md
R66). -/
def wireNumber (bytes : List Byte) : Nat := bytes.foldl (fun n b => n * 256 + b.toNat) 0

end Sys2Proof.Machine
end

