-- ==== Sys2Proof/Machine/Ports.lean ====
section
/-! DEFINITION. The output ports as functions of the state (10_state.md R21, R22). -/

namespace Sys2Proof.Machine

open Sys2Proof

/-- The seven outputs of R21. `none` is a value that carries no meaning (R22, 93_implementation_defined.md U6;
log 13). -/
structure Ports where
  reqReady : Bool
  outValid : Bool
  outFault : Bool
  outData  : Option Byte
  outLast  : Option Bool
  plRe     : Option Bool
  plAddr   : Option (BitVec 8)
deriving DecidableEq, Repr

/-- The slot the next EMIT-BYTE step would send. -/
def offeredSlot (s : State) : Slot := packetSlot (operandsOf s.block.rq) s.block.sum s.block.idx.toNat

/-- The payload address driven: that of the byte on offer; none while `rst` is asserted, when no EMIT step happens
(20_memory.md R31, 70_reset_and_hazards.md R170). -/
def drivenAddress (s : State) : Option (BitVec 8) := if s.host.rst then none else (offeredSlot s).address

/-- The outputs. Idle, only `req_ready`, `out_valid` and `out_fault` mean something (R22), and `pl_re`, which is 0, where a
RESET or an ACCEPT step is at hand. With a fault beat on offer, the code. With a packet beat on offer, its byte and the
payload port; a payload byte has no value while `rst` is asserted. In every step, `pl_re` is 1 exactly when it reads a
payload byte (20_memory.md R31, 92_eei_decisions.md D24; log 13). -/
def ports (s : State) : Ports :=
  if s.block.busy = false then
    { reqReady := true, outValid := false, outFault := false,
      outData := none, outLast := none,
      plRe := if s.host.rst || !s.host.requests.isEmpty then some false else none
      plAddr := none }
  else if s.block.fcode = 0 then
    { reqReady := false, outValid := true, outFault := false,
      outData := if drivenAddress s = (offeredSlot s).address then some (slotByte s (offeredSlot s)) else none,
      outLast := some (isLast (operandsOf s.block.rq) s.block.idx.toNat),
      plRe := some (drivenAddress s).isSome,
      plAddr := drivenAddress s }
  else
    { reqReady := false, outValid := true, outFault := true,
      outData := some (s.block.fcode.setWidth 8), outLast := some true, plRe := some false, plAddr := none }

/-- The five inputs of R21 as the host drives them; `none` where no word is offered, or no payload byte is read. -/
structure InputPorts where
  rst      : Bool
  reqValid : Bool
  req      : Option Word
  outReady : Bool
  plData   : Option Byte
deriving DecidableEq, Repr

/-- The inputs in this state: `pl_data` answers the address on `pl_addr` from the payload space, in the same step
(20_memory.md R31). -/
def inputPorts (s : State) : InputPorts :=
  { rst := s.host.rst, reqValid := !s.host.requests.isEmpty, req := s.host.requests.head?,
    outReady := s.host.outReady,
    plData := (ports s).plAddr.map fun a => Memory.read s.host.payload a.toNat }

end Sys2Proof.Machine
end

