-- ==== Sys2Proof/Safety.lean ====
section
/-! DEFINITION. The terms claims are stated in: what a trace shows, what a run owes, the invariants. -/

namespace Sys2Proof.Machine

open Sys2Proof

/-- It is the block's turn to move (log 4). -/
def isBlockTurn (s : State) : Bool :=
  match s.host.turns with
  | .host _ :: _ => false
  | _ => true

/-- The state once the turn at hand is taken off the schedule; the same state when none is pending. -/
def turnTaken (s : State) : State := s.withTurns s.host.turns.tail

/-- The beats of a trace, in order. -/
def beatsOf (es : List Event) : List Beat :=
  es.filterMap fun e => match e with
    | .beat b => some b
    | _ => none

/-- The payload reads of a trace, in order: the byte returned and its address. -/
def readsOf (es : List Event) : List (Byte × Nat) :=
  es.filterMap fun e => match e with
    | .read a v => some (v, a.toNat)
    | _ => none

/-- A run has faulted exactly when its trace contains a beat with `out_fault = 1` (60_exceptions.md R153). -/
def faulted (s : State) : Bool := (beatsOf s.trace).any (·.fault)

/-- In these turns the host puts no request on offer. -/
def offersNoRequest (ts : List Turn) : Bool :=
  ts.all fun u => match u with
    | .host (.offer rs) => rs.isEmpty
    | _ => true

/-- A run is over when the block is idle and the host offers no further request, now or in the turns to come; other
turns may be pending (42_sequencer.md R140). -/
def runOver (s : State) : Bool := !s.block.busy && s.host.requests.isEmpty && offersNoRequest s.host.turns

/-- The host stores to no payload address below `n` in the turns to come: its duty for a FRAME of `n` bytes
(70_reset_and_hazards.md R174). -/
def keepsPayload (n : Nat) (ts : List Turn) : Prop :=
  ∀ a v, Turn.host (.store a v) ∈ ts → n ≤ a.toNat

/-- What holds of an operation in flight after the events `es` since its ACCEPT, if `v` are the payload bytes it reads
from first to last (42_sequencer.md R137): a faulting request has had no event; otherwise exactly `idx` beats have
been sent, they are the first `idx` of the response, the reads are those of the payload bytes sent, and `sum` is
the sum mod 256 of the beats at indices up to `4 + L`. -/
def inFlightAfter (b : Block) (es : List Event) (v : List Byte) : Prop :=
  if b.fcode = 0 then
    v.length = payloadReads b.rq ∧
    b.idx.toNat < (response b.rq v).length ∧
    beatsOf es = (response b.rq v).take b.idx.toNat ∧
    readsOf es = v.zipIdx.take (b.idx.toNat - 5) ∧
    b.sum.toNat = sumBytes (((response b.rq v).take (min b.idx.toNat ((response b.rq v).length - 2))).map (·.data)) % 256
  else es = []

/-- The invariant of 42_sequencer.md R137: an operation in flight was accepted, its fault code is that of `Check`, and
`inFlightAfter` holds of what the trace shows since. An idle block owes nothing. -/
def OperationInv (s : State) : Prop :=
  s.block.busy = true →
    s.block.fcode = check s.block.rq ∧
    ∃ pre es v, s.trace = pre ++ .accept s.block.rq :: es ∧ inFlightAfter s.block es v

end Sys2Proof.Machine
end

