-- ==== Sys2Proof/WellFormed.lean ====
section
/-! DEFINITION. Which instructions are well formed. -/

namespace Sys2Proof

/-- The sum mod 256 of the bytes at indices 0 to 12 of an alert packet: the header's `0xA6` (41_alert.md R113), the
five bytes of the images and the bar, `0x50`, `0x00`, the volume byte (30_encoding.md R61). -/
def alertWireSum (digit1 digit2 bar band1 band2 vol : BitVec 8) : BitVec 8 :=
  0xA6 + digit1 + digit2 + bar + band1 + band2 + 0x50 + 0x00 + vol

/-- An operation is well formed when no illegal encoding of 30_encoding.md R57 is in it, so that `Check` accepts
it; a wire pattern when it can stand in a packet: a length byte is never 0 (40_frame.md R83), an image2 byte is
image1 or 0 (41_alert.md R104, R107), the checksum is the sum (30_encoding.md R61). Log 17. Decoding, accepting
and answering do not depend on it: every one of the `2^40` words is accepted (42_sequencer.md R131). -/
def WellFormed : Instr → Bool
  | .frame _ _ _ plen => plen != 255#8
  | .alert sel => decide (sel.band ≤ 4#4) && decide (sel.strength ≤ 8#4)
  | .pktHdr _ _ _ len => len != 0#8
  | .pktAlert d1 d2 bar b1 b2 vol ck =>
      (d2 == d1 || d2 == 0#8) && (b2 == b1 || b2 == 0#8) && (ck == alertWireSum d1 d2 bar b1 b2 vol)

end Sys2Proof
end

