-- ==== Sys2Proof/Certificates/Slice0/Obligations.lean ====
section
/-! DEFINITION. The statements for the provers. A statement about the next step names whose turn it is
(`isBlockTurn`) and the state with that turn taken off the schedule (`turnTaken`, log 4). -/

open Sys2Proof Sys2Proof.Machine

/-! ## Encoding -/

/-- 30_encoding.md R51, R52, R59: the decoder reads back every instruction from its words, every operand at every value.
For PKT.ALERT (R61) this rests on the model's choices: the packet as three request words, read by the longest match
(log 8; its first word alone reads as PKT.HDR), and how the table's pattern is cut into words (log 15). -/
def Obligations.DecodeOfEncode : Prop :=
  ∀ i : Instr, decode (encode i) = .ok i

/-- 30_encoding.md R53 and R66, the match and mask of spec/opcode_table.json: which words the decoder reads as which of
the three one-word rows, and that it rejects every other word by its operation byte. -/
def Obligations.DecoderFollowsMatchAndMask : Prop :=
  ∀ w : Word,
    ((∃ dest src msg plen, decodeWord w = .ok (.frame dest src msg plen)) ↔
      w &&& 0xFF00000000#40 = 0x0100000000#40) ∧
    ((∃ sel, decodeWord w = .ok (.alert sel)) ↔ w &&& 0xFF00000000#40 = 0x0200000000#40) ∧
    ((∃ dest src msg len, decodeWord w = .ok (.pktHdr dest src msg len)) ↔
      w &&& 0xFFF0F00000#40 = 0xAAD0E00000#40) ∧
    (w &&& 0xFF00000000#40 ≠ 0x0100000000#40 → w &&& 0xFF00000000#40 ≠ 0x0200000000#40 →
      w &&& 0xFFF0F00000#40 ≠ 0xAAD0E00000#40 →
      decodeWord w = .error (.illegalOp (BitVec.ofNat 8 (w.toNat / 2 ^ 32))))

/-- Words of 95_test_vectors.md (A1, A9, F2, F13) and of the two wire rows decode to what they stand for. That the two
120-bit words read as PKT.HDR (the printed length byte 08) and as PKT.ALERT (the packet of A1) is the model's choice:
the cut into words (log 15) and the longest match (log 8). -/
def Obligations.WrittenWordsDecode : Prop :=
  decodeTableWord 40 0x0253350800 = some (.alert
    { blink := false, digitValid := true, dir := 1, band := 3, strength := 3, digit := 5, mainVol := 8, muteVol := 0 }) ∧
  decodeTableWord 40 0x02F180FF00 = some (.alert
    { blink := true, digitValid := true, dir := 3, band := 1, strength := 8, digit := 0, mainVol := 0xFF, muteVol := 0 }) ∧
  decodeTableWord 40 0x0118FA3101 = some (.frame 0x18 0xFA 0x31 0x01) ∧
  decodeTableWord 40 0x01000000FF = some (.frame 0 0 0 255) ∧
  decodeTableWord 40 0xAAD8EA3109 = some (.pktHdr 8 10 0x31 9) ∧
  decodeTableWord 120 0xAAD8EA31086D6D0724245000809EAB = some (.pktHdr 8 10 0x31 8) ∧
  decodeTableWord 120 0xAAD8EA31096D6D0724245000809FAB = some (.pktAlert 0x6D 0x6D 0x07 0x24 0x24 0x80 0x9F) ∧
  decodeTableWord 40 0xFF12345678 = none

/-- 42_sequencer.md R132: `Check` as arithmetic on the word's number, the tests in the order of the rule. -/
def Obligations.CheckIsTheRule : Prop :=
  ∀ r : Word, (check r).toNat =
    let op := r.toNat / 2 ^ 32
    if op = 0x01 then (if r.toNat % 2 ^ 8 = 255 then 4 else 0)
    else if op = 0x02 then
      (if 5 ≤ r.toNat / 2 ^ 24 % 2 ^ 4 then 2 else if 9 ≤ r.toNat / 2 ^ 20 % 2 ^ 4 then 3 else 0)
    else 1

/-- 30_encoding.md R57 against 42_sequencer.md R132: the two operations are well formed exactly when `Check` passes
their word, and a wire pattern at the request port never passes. -/
def Obligations.WellFormedRequestsPassCheck : Prop :=
  (∀ dest src msg plen, WellFormed (.frame dest src msg plen) = true ↔
    check (requestWord (.frame dest src msg plen)) = 0) ∧
  (∀ sel, WellFormed (.alert sel) = true ↔ check (requestWord (.alert sel)) = 0) ∧
  (∀ dest src msg len, check (requestWord (.pktHdr dest src msg len)) = 1) ∧
  (∀ d1 d2 bar b1 b2 vol ck, check (requestWord (.pktAlert d1 d2 bar b1 b2 vol ck)) = 1)

/-- 30_encoding.md R54, R55, R56, R52: a typed selection never has a reserved band code, so its request passes `Check`
exactly when its strength is at most 8, and else faults with code 3. -/
def Obligations.TypedSelectionsFaultOnlyOnStrength : Prop :=
  ∀ a : AlertSelection,
    check (requestWord (alertRequest a)) = if a.strength ≤ 8#4 then 0 else faultCode .strengthRange

/-! ## The step and the instruction it runs -/

/-- 42_sequencer.md R131: in the block's turn, idle, `rst` low, a word on offer, the step is `exec` of the instruction
the decoder reads at the head of the offer, at the state with that word taken off. -/
def Obligations.StepRunsOfferedInstruction : Prop :=
  ∀ (s : State) (r : Word) (rest : List Word) (i : Instr),
    isBlockTurn s = true → s.host.rst = false → s.block.busy = false → s.host.requests = r :: rest →
    decode (r :: rest) = .ok i →
    step s = exec i ((turnTaken s).withRequests rest)

/-- 10_state.md R12, 42_sequencer.md R133, R134: in the block's turn, busy, `rst` low, the host taking the beat, the step
is `exec` of the instruction in `rq`. -/
def Obligations.StepRunsInFlightInstruction : Prop :=
  ∀ (s : State) (i : Instr),
    isBlockTurn s = true → s.host.rst = false → s.block.busy = true → s.host.outReady = true →
    decodeWord s.block.rq = .ok i →
    step s = exec i (turnTaken s)

/-- 60_exceptions.md R159, 42_sequencer.md R141: no instruction and no step, in any state, ends in a fault or a
refusal of the model. -/
def Obligations.EveryStepAnswersNext : Prop :=
  (∀ i s, ∃ t, exec i s = .next t) ∧ (∀ s, ∃ t, step s = .next t)

/-! ## ACCEPT -/

/-- 40_frame.md R81, R87 and 42_sequencer.md R131: FRAME at an idle block is accepted; `rq` is its whole word, `fcode` is
4 exactly at `plen = 255`, `idx` and `sum` are 0, one `Accept` event; nothing else changes. -/
def Obligations.FrameAccepted : Prop :=
  ∀ (s : State) (dest src msg plen : BitVec 8), s.block.busy = false →
    exec (.frame dest src msg plen) s = .next { s with
      block := { busy := true, rq := 0x01#8 ++ dest ++ src ++ msg ++ plen, idx := 0, sum := 0,
                 fcode := if plen = 255 then 4 else 0 }
      trace := s.trace ++ [.accept (0x01#8 ++ dest ++ src ++ msg ++ plen)] }

/-- 41_alert.md R100, R109, R115 and 60_exceptions.md R151: ALERT at an idle block is accepted; `fcode` is 2 for a
reserved band, whatever the strength, else 3 for a strength above 8, else 0; nothing else changes. -/
def Obligations.AlertAccepted : Prop :=
  ∀ (s : State) (sel : Selection), s.block.busy = false →
    exec (.alert sel) s = .next { s with
      block := { busy := true, rq := 0x02#8 ++ selectionBits sel, idx := 0, sum := 0,
                 fcode := if 5 ≤ sel.band.toNat then 2 else if 9 ≤ sel.strength.toNat then 3 else 0 }
      trace := s.trace ++ [.accept (0x02#8 ++ selectionBits sel)] }

/-- 30_encoding.md R53, R59 and 60_exceptions.md R150, R152: the first five bytes of a packet, offered as a request word
to an idle block, are accepted with fault code 1, ILLEGAL_OP. That this is what the row does is the model's reading
(log 7). -/
def Obligations.PacketHeaderIsIllegalRequest : Prop :=
  ∀ (s : State) (dest src : BitVec 4) (msg len : BitVec 8), s.block.busy = false →
    exec (.pktHdr dest src msg len) s = .next { s with
      block := { busy := true, rq := 0xAA#8 ++ 0xD#4 ++ dest ++ 0xE#4 ++ src ++ msg ++ len, idx := 0, sum := 0,
                 fcode := 1 }
      trace := s.trace ++ [.accept (0xAA#8 ++ 0xD#4 ++ dest ++ 0xE#4 ++ src ++ msg ++ len)] }

/-- 30_encoding.md R53, R61: of an alert packet offered as three request words, an idle block accepts the first,
`AA D8 EA 31 09`, with fault code 1. That this is what the row does is the model's choice (log 8). -/
def Obligations.AlertPacketIsIllegalRequest : Prop :=
  ∀ (s : State) (d1 d2 bar b1 b2 vol ck : BitVec 8), s.block.busy = false →
    exec (.pktAlert d1 d2 bar b1 b2 vol ck) s = .next { s with
      block := { busy := true, rq := 0xAAD8EA3109, idx := 0, sum := 0, fcode := 1 }
      trace := s.trace ++ [.accept 0xAAD8EA3109] }

/-- 42_sequencer.md R131: an idle block accepts any of the `2^40` words, `fcode` being `Check` of it; a busy block
accepts none, the offer waits. -/
def Obligations.AcceptLatchesAnyWord : Prop :=
  (∀ (s : State) (r : Word) (rest : List Word),
    isBlockTurn s = true → s.host.rst = false → s.block.busy = false → s.host.requests = r :: rest →
    step s = .next { turnTaken s with
      block := { busy := true, rq := r, fcode := check r, idx := 0, sum := 0 }
      host := { (turnTaken s).host with requests := rest }
      trace := s.trace ++ [.accept r] }) ∧
  (∀ s t : State, isBlockTurn s = true → s.block.busy = true → step s = .next t →
    t.host = (turnTaken s).host ∧ ∀ r, ∀ es, t.trace ≠ s.trace ++ es ++ [.accept r])

/-! ## EMIT -/

/-- 42_sequencer.md R134, R135 and 40_frame.md R82, R83, R84: a FRAME in flight that passed `Check` sends the byte at
`idx`, reading payload address `idx - 5` in that very step when it is a payload byte, adds it to `sum` up to index
`4 + L`, advances `idx`, and is idle after the byte at `L + 6`; nothing else changes. -/
def Obligations.FrameSendsItsByte : Prop :=
  ∀ (s : State) (dest src msg plen : BitVec 8),
    s.block.busy = true → s.block.fcode = 0 → plen ≠ 255 → s.block.idx.toNat ≤ plen.toNat + 6 →
    let k := s.block.idx.toNat
    let L := plen.toNat
    let b : Byte :=
      if k = 0 then 0xAA
      else if k = 1 then 0xD0 ||| (dest &&& 0xF)
      else if k = 2 then 0xE0 ||| (src &&& 0xF)
      else if k = 3 then msg
      else if k = 4 then plen + 1
      else if k ≤ 4 + L then Memory.read s.host.payload (k - 5)
      else if k = 5 + L then s.block.sum
      else 0xAB
    exec (.frame dest src msg plen) s = .next { s with
      block := { busy := decide (k ≠ L + 6), rq := s.block.rq, idx := s.block.idx + 1,
                 sum := if k ≤ 4 + L then s.block.sum + b else s.block.sum, fcode := 0 }
      trace := s.trace ++ (if 5 ≤ k ∧ k ≤ 4 + L then [.read (BitVec.ofNat 8 (k - 5)) b] else [])
        ++ [.beat { fault := false, data := b, last := decide (k = L + 6) }] }

/-- 42_sequencer.md R134, R135 and 30_encoding.md R61: an ALERT in flight that passed `Check` sends the byte at `idx` of
its 15-byte packet and reads no payload byte; nothing else changes. -/
def Obligations.AlertSendsItsByte : Prop :=
  ∀ (s : State) (sel : Selection),
    s.block.busy = true → s.block.fcode = 0 → sel.band ≤ 4#4 → sel.strength ≤ 8#4 → s.block.idx.toNat ≤ 14 →
    ∃ p : List Byte, alertPayload sel = some p ∧ p.length = 8 ∧
      let k := s.block.idx.toNat
      let b : Byte := ([0xAA, 0xD8, 0xEA, 0x31, 0x09] ++ p ++ [s.block.sum, 0xAB]).getD k 0
      exec (.alert sel) s = .next { s with
        block := { busy := decide (k ≠ 14), rq := s.block.rq, idx := s.block.idx + 1,
                   sum := if k ≤ 12 then s.block.sum + b else s.block.sum, fcode := 0 }
        trace := s.trace ++ [.beat { fault := false, data := b, last := decide (k = 14) }] }

/-- 42_sequencer.md R133: a faulting operation in flight, whatever word is latched, sends the one fault beat when the
host takes it and is idle; `idx`, `sum`, `rq`, `fcode`, the payload space and every other part stay; `pl_re` is 0. -/
def Obligations.FaultBeatEndsTheOperation : Prop :=
  (∀ s : State, s.block.busy = true → s.block.fcode ≠ 0 → (ports s).plRe = some false) ∧
  (∀ (i : Instr) (s : State), s.block.busy = true → s.block.fcode ≠ 0 →
    exec i s = .next { s with
      block := { s.block with busy := false }
      trace := s.trace ++ [.beat { fault := true, data := s.block.fcode.setWidth 8, last := true }] }) ∧
  (∀ s : State, isBlockTurn s = true → s.host.rst = false → s.block.busy = true → s.block.fcode ≠ 0 →
    s.host.outReady = true →
    step s = .next { turnTaken s with
      block := { s.block with busy := false }
      trace := s.trace ++ [.beat { fault := true, data := s.block.fcode.setWidth 8, last := true }] })

/-- 70_reset_and_hazards.md R176: while the host takes no beat, nothing changes: the beat stays on offer. -/
def Obligations.BackPressureHoldsTheBeat : Prop :=
  ∀ s : State, isBlockTurn s = true → s.host.rst = false → s.block.busy = true → s.host.outReady = false →
    step s = .next (turnTaken s) ∧ ports (turnTaken s) = ports s

/-- 10_state.md R22: the status outputs are functions of `busy` and `fcode`; while busy, the beat on offer and the
payload address driven are those of the EMIT step that happens when the host takes it. -/
def Obligations.PortsShowTheNextBeat : Prop :=
  ∀ s : State,
    ((ports s).reqReady = true ↔ s.block.busy = false) ∧
    ((ports s).outValid = true ↔ s.block.busy = true) ∧
    ((ports s).outFault = true ↔ s.block.busy = true ∧ s.block.fcode ≠ 0) ∧
    (isBlockTurn s = true → s.host.rst = false → s.block.busy = true → s.host.outReady = true →
      ∃ d l t es, (ports s).outData = some d ∧ (ports s).outLast = some l ∧ step s = .next t ∧
        t.trace = s.trace ++ es ∧ beatsOf es = [{ fault := (ports s).outFault, data := d, last := l }] ∧
        ((ports s).plRe = some true ↔ readsOf es ≠ []) ∧
        (∀ a, (ports s).plAddr = some a ↔ readsOf es = [(d, a.toNat)]))

/-- 20_memory.md R31, 92_eei_decisions.md D24, 93_implementation_defined.md U6: in every step of the block that shows an
event, a RESET, an ACCEPT or a beat, `pl_re` is 1 exactly when the step reads a payload byte; then `pl_addr` is the
address read and `pl_data` the byte returned, and otherwise no address is driven. -/
def Obligations.PayloadPortMarksTheReads : Prop :=
  ∀ (s t : State) (es : List Event), isBlockTurn s = true → step s = .next t → t.trace = s.trace ++ es → es ≠ [] →
    (ports s).plRe = some (decide (readsOf es ≠ [])) ∧
    (readsOf es = [] → (ports s).plAddr = none ∧ (inputPorts s).plData = none) ∧
    ∀ a v, Event.read a v ∈ es → (ports s).plAddr = some a ∧ (inputPorts s).plData = some v

/-- 10_state.md R22, 70_reset_and_hazards.md R175, R176: with `rst` low, the two handshakes decide the block's step: with
`req_valid` and `req_ready`, ACCEPT of the word on `req`; with `out_valid` and `out_ready`, exactly one beat;
otherwise nothing is shown and the block is as it was (log 11). -/
def Obligations.HandshakesDecideTheStep : Prop :=
  ∀ s : State, isBlockTurn s = true → s.host.rst = false →
    ∃ t es, step s = .next t ∧ t.trace = s.trace ++ es ∧
      ((inputPorts s).reqValid = true → (ports s).reqReady = true →
        ∃ r, (inputPorts s).req = some r ∧ es = [.accept r] ∧ t.block.rq = r ∧ t.block.busy = true) ∧
      ((ports s).outValid = true → (inputPorts s).outReady = true → (beatsOf es).length = 1) ∧
      (¬((inputPorts s).reqValid = true ∧ (ports s).reqReady = true) →
        ¬((ports s).outValid = true ∧ (inputPorts s).outReady = true) → es = [] ∧ t.block = s.block)

/-! ## Frames: what a step leaves alone -/

/-- 20_memory.md R30, 10_state.md R25: no instruction, in any phase, changes any byte of the payload space or any other
part of the host's side; the trace only grows. -/
def Obligations.InstructionsLeaveTheHostAlone : Prop :=
  ∀ (i : Instr) (s t : State), exec i s = .next t →
    t.host = s.host ∧ (∀ a, Memory.read t.host.payload a = Memory.read s.host.payload a) ∧
    ∃ es, t.trace = s.trace ++ es

/-- 10_state.md R12, R13, R14, R15: from one beat to the next an operation keeps `rq` and `fcode`; a packet beat adds one
to `idx`, but at 511, where R13 gives no value (log 9); the fault beat keeps `idx`; the fault beat and the bytes after
index `4 + L` keep `sum`. For every instruction in flight. -/
def Obligations.BeatsKeepTheLatchedRequest : Prop :=
  ∀ (i : Instr) (s t : State), s.block.busy = true → exec i s = .next t →
    t.block.rq = s.block.rq ∧ t.block.fcode = s.block.fcode ∧
    (s.block.fcode ≠ 0 → t.block.idx = s.block.idx ∧ t.block.sum = s.block.sum) ∧
    (s.block.fcode = 0 → s.block.idx ≠ 511 → t.block.idx = s.block.idx + 1) ∧
    (s.block.fcode = 0 → decodeWord s.block.rq = .ok i → (operandsOf s.block.rq).len + 4 < s.block.idx.toNat →
      t.block.sum = s.block.sum)

/-- 20_memory.md R31, R34, R35, 92_eei_decisions.md D24: a payload read is made by a FRAME beat alone, at most one in a
step, at address `idx - 5`, below `plen` and at most 253, and it returns what the payload space holds then. -/
def Obligations.OnlyFrameReadsThePayload : Prop :=
  ∀ (i : Instr) (s t : State) (es : List Event), exec i s = .next t → t.trace = s.trace ++ es →
    (readsOf es).length ≤ 1 ∧
    ∀ a v, Event.read a v ∈ es →
      s.block.busy = true ∧ s.block.fcode = 0 ∧ a.toNat ≤ 253 ∧ s.block.idx.toNat = a.toNat + 5 ∧
      v = Memory.read s.host.payload a.toNat ∧
      ∃ dest src msg plen, i = .frame dest src msg plen ∧ a.toNat < plen.toNat

/-- 42_sequencer.md R136: the block's only transitions when `rst` is low: none, idle to busy at index 0, one beat on by
exactly one index (at 511 R13 gives no next index: log 9), a fault beat to idle. -/
def Obligations.OnlyTheseTransitions : Prop :=
  ∀ s t : State, isBlockTurn s = true → s.host.rst = false → step s = .next t →
    t.block = s.block ∨
    (s.block.busy = false ∧ t.block.busy = true ∧ t.block.idx = 0) ∨
    (s.block.busy = true ∧ s.block.fcode = 0 ∧ (s.block.idx ≠ 511 → t.block.idx = s.block.idx + 1) ∧
      (t.block.busy = false ↔ s.block.idx.toNat = (operandsOf s.block.rq).len + 6)) ∨
    (s.block.busy = true ∧ s.block.fcode ≠ 0 ∧ t.block = { s.block with busy := false })

/-- 42_sequencer.md R130, 20_memory.md R36, 10_state.md R21: a move of the host leaves the block and the trace as they
are and takes its turn off the schedule; beyond that an offer changes the words on offer alone, `ready` and `reset` the
pin they drive alone, a store the payload space alone, and there exactly the byte at its address, if it is
canonical. -/
def Obligations.HostMovesLeaveTheBlockAlone : Prop :=
  ∀ (s : State) (m : HostMove) (ts : List Turn), s.host.turns = .host m :: ts →
    ∃ t, step s = .next t ∧ t.block = s.block ∧ t.trace = s.trace ∧ t.drawn = s.drawn ∧
      (∀ rs, m = .offer rs → t.host = { s.host with turns := ts, requests := rs }) ∧
      (∀ b, m = .ready b → t.host = { s.host with turns := ts, outReady := b }) ∧
      (∀ b, m = .reset b → t.host = { s.host with turns := ts, rst := b }) ∧
      (∀ a v, m = .store a v → t.host = { s.host with turns := ts, payload := t.host.payload } ∧
        (Memory.wf s.host.payload → ∀ b : BitVec 8,
          Memory.read t.host.payload b.toNat = if b = a then v else Memory.read s.host.payload b.toNat))

/-- 70_reset_and_hazards.md R174, 20_memory.md R36: if the host stores to no address below `n` in the turns to come, then
however many steps later the payload bytes below `n` are what they were. -/
def Obligations.DutyKeepsThePayload : Prop :=
  ∀ (n k : Nat) (s t : State), Memory.wf s.host.payload → keepsPayload n s.host.turns →
    Host.Core.run Sys2Proof.core k s = .next t →
    ∀ a, a < n → Memory.read t.host.payload a = Memory.read s.host.payload a

/-! ## Reset -/

/-- 70_reset_and_hazards.md R170: the effect of a RESET step, in any state: idle after it, `req_ready` 1 and `out_valid`
0, no beat, no read, no ACCEPT, the host's side untouched. The other four registers are left open. That the block's
turn with `rst` asserted is a RESET step is the model's reading (log 19): R170 and 10_state.md R21 say that one may
happen then. -/
def Obligations.ResetStepIdlesTheBlock : Prop :=
  ∀ s : State, isBlockTurn s = true → s.host.rst = true →
    ∃ t, step s = .next t ∧ t.block.busy = false ∧ t.trace = s.trace ++ [.reset] ∧ t.host = (turnTaken s).host ∧
      (ports t).reqReady = true ∧ (ports t).outValid = false

/-- 10_state.md R20: after reset the block is idle and able to accept. That no request is on offer then and no turn is
scheduled, so that the run is over (42_sequencer.md R140), is the model's choice (log 5). The values of the other four
registers are the model's choice too (log 2) and stated nowhere. -/
def Obligations.ResetStateIsIdle : Prop :=
  State.reset.block.busy = false ∧ (ports State.reset).reqReady = true ∧ (ports State.reset).outValid = false ∧
  faulted State.reset = false ∧ runOver State.reset = true

/-! ## The alert payload -/

/-- 41_alert.md R101: the seven-segment table, defined on 0 to 9 only, bit 7 clear and no entry 0, so a valid digit
never shows 0. -/
def Obligations.SegmentTable : Prop :=
  ((List.range 16).map fun n => seg (BitVec.ofNat 4 n)) =
    [some 0x3F, some 0x06, some 0x5B, some 0x4F, some 0x66, some 0x6D, some 0x7D, some 0x07, some 0x7F, some 0x6F,
      none, none, none, none, none, none] ∧
  (∀ d b, seg d = some b → b.getLsbD 7 = false ∧ b ≠ 0) ∧
  ∀ d, d ≤ 9#4 → digitImage1 true d ≠ 0

/-- 41_alert.md R102, R103, R104: `digit_image1` is the digit's segments, 0 without a valid digit; `digit_image2` is 0
when blinking with a digit, else `digit_image1`; as a value that is 0 whenever blinking. No digit input is an error:
`Check` does not depend on it. -/
def Obligations.DigitBlinks : Prop :=
  (∀ (sel : Selection) (digitValid : Bool) (digit : BitVec 4),
    check (requestWord (.alert { sel with digitValid := digitValid, digit := digit }))
      = check (requestWord (.alert sel))) ∧
  ∀ (blink digitValid : Bool) (digit : BitVec 4),
    (hasDigit digitValid digit = true ↔ digitValid = true ∧ digit.toNat ≤ 9) ∧
    some (digitImage1 digitValid digit) = (if digitValid = true ∧ digit.toNat ≤ 9 then seg digit else some 0x00) ∧
    digitImage2 blink digitValid digit =
      (if blink = true ∧ digitValid = true ∧ digit.toNat ≤ 9 then 0x00 else digitImage1 digitValid digit) ∧
    digitImage2 blink digitValid digit = if blink then 0x00 else digitImage1 digitValid digit

/-- 41_alert.md R105, R106, R114, R115: the twenty values of `band_image1`, none for a reserved code; at most one band
bit, at most one direction bit, never bit 4. -/
def Obligations.BandImageTable : Prop :=
  ((List.range 5).map fun b => (List.range 4).map fun d => bandImage1 (BitVec.ofNat 4 b) (BitVec.ofNat 2 d)) =
    [[some 0x00, some 0x20, some 0x40, some 0x80], [some 0x01, some 0x21, some 0x41, some 0x81],
     [some 0x02, some 0x22, some 0x42, some 0x82], [some 0x04, some 0x24, some 0x44, some 0x84],
     [some 0x08, some 0x28, some 0x48, some 0x88]] ∧
  (∀ band dir, 5 ≤ band.toNat ↔ bandImage1 band dir = none) ∧
  (∀ band dir b, bandImage1 band dir = some b →
    b.getLsbD 4 = false ∧
    (∀ m n, m < 4 → n < 4 → b.getLsbD m = true → b.getLsbD n = true → m = n) ∧
    (∀ m n, 4 < m → 4 < n → b.getLsbD m = true → b.getLsbD n = true → m = n))

/-- 41_alert.md R108, R109: the strength bar is a run of `s` low bits for `s` up to 8, and there is none above. -/
def Obligations.StrengthBarIsARun : Prop :=
  ∀ s : BitVec 4,
    (s.toNat ≤ 8 → ∃ b, bar s = some b ∧ b.toNat = 2 ^ s.toNat - 1 ∧
      ∀ n, n < 8 → (b.getLsbD n = true ↔ n < s.toNat)) ∧
    (8 < s.toNat → bar s = none)

/-- 41_alert.md R110, R116: main volume in the high nibble, mute volume in the low nibble, both masked. -/
def Obligations.VolumeNibbles : Prop :=
  ∀ mainVol muteVol : Byte,
    (volumeByte mainVol muteVol).toNat = 16 * (mainVol.toNat % 16) + muteVol.toNat % 16

/-- 41_alert.md R112, with the bytes of R101 to R111 written as arithmetic on the fields' numbers: the eight payload
bytes of every selection with `band <= 4` and `strength <= 8`, in order. -/
def Obligations.AlertPayloadLayout : Prop :=
  ∀ sel : Selection, sel.band.toNat ≤ 4 → sel.strength.toNat ≤ 8 →
    let hasOne := sel.digitValid = true ∧ sel.digit.toNat ≤ 9
    let d1 : Nat := if hasOne then
      [0x3F, 0x06, 0x5B, 0x4F, 0x66, 0x6D, 0x7D, 0x07, 0x7F, 0x6F].getD sel.digit.toNat 0 else 0
    let b1 : Nat := (if sel.band.toNat = 0 then 0 else 2 ^ (sel.band.toNat - 1)) +
      (if sel.dir.toNat = 0 then 0 else 2 ^ (sel.dir.toNat + 4))
    (alertPayload sel).map (List.map BitVec.toNat) = some
      [d1, if sel.blink = true ∧ hasOne then 0 else d1, 2 ^ sel.strength.toNat - 1, b1,
        if sel.blink = true then 0 else b1, 0x50, 0x00, 16 * (sel.mainVol.toNat % 16) + sel.muteVol.toNat % 16]

/-- 41_alert.md R112, R113: the payload exists exactly for `band <= 4` and `strength <= 8`; the alert packet is then 15
bytes `AA D8 EA 31 09`, the payload, the checksum `(0xA6 + Σ payload) mod 256`, `AB`, with `50 00` at payload bytes
5 and 6. -/
def Obligations.AlertPacketShape : Prop :=
  ∀ sel : Selection,
    ((∃ p, alertPayload sel = some p) ↔ sel.band ≤ 4#4 ∧ sel.strength ≤ 8#4) ∧
    ∀ p, alertPayload sel = some p →
      alertPacket sel = frame 0x08 0x0A 0x31 p ∧ p.length = 8 ∧ p[5]? = some 0x50 ∧ p[6]? = some 0x00 ∧
      alertPacket sel = some ([0xAA, 0xD8, 0xEA, 0x31, 0x09] ++ p ++
        [BitVec.ofNat 8 ((0xA6 + sumBytes p) % 256), 0xAB])

/-- 41_alert.md R114, R107: the blink flag changes payload bytes 1 and 4 only; clear, they equal bytes 0 and 3; set,
they are 0. -/
def Obligations.BlinkChangesImage2Only : Prop :=
  ∀ (sel : Selection) (p q : List Byte),
    alertPayload { sel with blink := false } = some p → alertPayload { sel with blink := true } = some q →
    p[1]? = p[0]? ∧ p[4]? = p[3]? ∧ q[1]? = some 0x00 ∧ q[4]? = some 0x00 ∧
    q[0]? = p[0]? ∧ q[2]? = p[2]? ∧ q[3]? = p[3]? ∧ q[5]? = p[5]? ∧ q[6]? = p[6]? ∧ q[7]? = p[7]?

/-! ## The packet -/

/-- 40_frame.md R80, R86, R83, R87: `Frame` is defined exactly up to 254 payload bytes; the packet starts with `AA`, ends
with `AB`, has length `L + 7`, its byte at index 4 is `L + 1`, its address bytes are in `D0..DF` and `E0..EF`, the
payload is in it unchanged; what is not payload depends only on `dest mod 16`, `src mod 16`, `msg mod 256`, `L` and
`Σ p mod 256`. -/
def Obligations.FramePacketShape : Prop :=
  ∀ (dest src msg : Nat) (p : List Byte),
    (254 < p.length → frame dest src msg p = none) ∧
    (p.length ≤ 254 → ∃ pkt, frame dest src msg p = some pkt ∧
      pkt.length = p.length + 7 ∧ pkt.head? = some 0xAA ∧ pkt.getLast? = some 0xAB ∧
      (∀ b, pkt[1]? = some b → b.toNat = 0xD0 + dest % 16) ∧ (∀ b, pkt[2]? = some b → b.toNat = 0xE0 + src % 16) ∧
      (∀ b, pkt[3]? = some b → b.toNat = msg % 256) ∧ (∀ b, pkt[4]? = some b → b.toNat = p.length + 1) ∧
      (pkt.drop 5).take p.length = p ∧
      ∀ (dest' src' msg' : Nat) (p' : List Byte), dest' % 16 = dest % 16 → src' % 16 = src % 16 →
        msg' % 256 = msg % 256 → p'.length = p.length → sumBytes p' % 256 = sumBytes p % 256 →
        ∃ pkt', frame dest' src' msg' p' = some pkt' ∧ pkt'.take 5 = pkt.take 5 ∧
          pkt'.drop (5 + p.length) = pkt.drop (5 + p.length))

/-- 40_frame.md R84, R85: the second to last byte is the sum mod 256 of all bytes before it, and equals
`(0x5A + dest mod 16 + src mod 16 + msg + L + 1 + Σ p) mod 256`; `EOF` follows it. -/
def Obligations.ChecksumRoundTrip : Prop :=
  ∀ (dest src msg : Nat) (p pkt : List Byte), frame dest src msg p = some pkt →
    ∃ cs : Byte, pkt[p.length + 5]? = some cs ∧ pkt[p.length + 6]? = some 0xAB ∧
      cs.toNat = sumBytes (pkt.take (pkt.length - 2)) % 256 ∧
      cs.toNat = (0x5A + dest % 16 + src % 16 + msg % 256 + p.length + 1 + sumBytes p) % 256

/-- 30_encoding.md R62: the byte at index 4 of a packet tells its length. -/
def Obligations.ReaderFindsTheEnd : Prop :=
  ∀ (dest src msg : Nat) (p pkt : List Byte), frame dest src msg p = some pkt → wireLength pkt = some pkt.length

/-- 30_encoding.md R59, R61, R66: the first five bytes of every packet are a PKT.HDR with the ids, the message and the
length byte; every alert packet is a PKT.ALERT with the bytes of its payload, both well formed. Three things here are
the model's choice: the longest match, since the same bits begin with a PKT.HDR (log 8), the cut of 120 bits into
words (log 15), and what well formed means of a wire pattern (log 17). -/
def Obligations.PacketsMatchTheWirePatterns : Prop :=
  (∀ (dest src msg : Nat) (p pkt : List Byte), frame dest src msg p = some pkt →
    let i : Instr := .pktHdr (BitVec.ofNat 4 dest) (BitVec.ofNat 4 src) (BitVec.ofNat 8 msg)
      (BitVec.ofNat 8 (p.length + 1))
    decodeTableWord 40 (wireNumber (pkt.take 5)) = some i ∧ WellFormed i = true) ∧
  (∀ (sel : Selection) (pkt : List Byte), alertPacket sel = some pkt →
    ∃ d1 d2 bar b1 b2 vol ck : Byte,
      alertPayload sel = some [d1, d2, bar, b1, b2, 0x50, 0x00, vol] ∧
      decodeTableWord 120 (wireNumber pkt) = some (.pktAlert d1 d2 bar b1 b2 vol ck) ∧
      WellFormed (.pktAlert d1 d2 bar b1 b2 vol ck) = true)

/-- 30_encoding.md R65: an ALERT request yields exactly the packet of `FRAME dest=8 src=10 msg=0x31 plen=8` with the
alert payload. -/
def Obligations.AlertIsFrameOfItsPayload : Prop :=
  ∀ (sel : Selection) (p : List Byte), alertPayload sel = some p →
    response (requestWord (.alert sel)) [] = response 0x01080A3108#40 p ∧ response 0x01080A3108#40 p ≠ []

/-- 30_encoding.md R57: two requests that differ only in ignored bits get the same response: the high nibbles of the ids,
of the volumes, the digit of a selection without one, every field under a reserved operation code. -/
def Obligations.IgnoredBitsDoNotShow : Prop :=
  (∀ (dest src dest' src' msg plen : BitVec 8) (v : List Byte),
    dest'.toNat % 16 = dest.toNat % 16 → src'.toNat % 16 = src.toNat % 16 →
    response (requestWord (.frame dest' src' msg plen)) v = response (requestWord (.frame dest src msg plen)) v) ∧
  (∀ (sel sel' : Selection) (v : List Byte),
    sel'.blink = sel.blink → sel'.digitValid = sel.digitValid → sel'.dir = sel.dir → sel'.band = sel.band →
    sel'.strength = sel.strength → (sel.digitValid = true → sel'.digit = sel.digit) →
    sel'.mainVol.toNat % 16 = sel.mainVol.toNat % 16 → sel'.muteVol.toNat % 16 = sel.muteVol.toNat % 16 →
    response (requestWord (.alert sel')) v = response (requestWord (.alert sel)) v) ∧
  (∀ (r r' : Word) (v v' : List Byte), r.toNat / 2 ^ 32 ≠ 1 → r.toNat / 2 ^ 32 ≠ 2 →
    r'.toNat / 2 ^ 32 = r.toNat / 2 ^ 32 → response r' v' = response r v)

/-! ## Invariants and runs -/

/-- The payload space keeps its canonical form under every step (20_memory.md R30; the form is the model's, log 6). -/
def Obligations.StepKeepsMemoryCanonical : Prop :=
  ∀ s t : State, Memory.wf s.host.payload → step s = .next t → Memory.wf t.host.payload

/-- The payload space is canonical at reset (the form is the model's, log 6). -/
def Obligations.ResetMemoryCanonical : Prop := Memory.wf State.reset.host.payload

/-- 42_sequencer.md R137: every step, of block or host, a RESET included, keeps the invariant of the operation in
flight: its fault code is `Check` of its word; the beats since its ACCEPT are the first `idx` of its response and
the reads those of the payload bytes sent; `sum` is the sum mod 256 of the beats up to index `4 + L`; a faulting
request has sent nothing. -/
def Obligations.StepKeepsOperationInv : Prop :=
  ∀ s t : State, OperationInv s → step s = .next t → OperationInv t

/-- The invariant of 42_sequencer.md R137 holds at reset. -/
def Obligations.ResetMeetsOperationInv : Prop := OperationInv State.reset

/-- 42_sequencer.md R138, 40_frame.md R85: whatever the host did in between, the step that makes a busy block idle
without a RESET closes exactly the function-level response to the accepted word, over the payload bytes the host
returned, each read once in ascending order. -/
def Obligations.LastBeatClosesTheResponse : Prop :=
  ∀ s t : State, OperationInv s → s.block.busy = true → s.host.rst = false → step s = .next t →
    t.block.busy = false →
    ∃ pre es v, t.trace = pre ++ .accept s.block.rq :: es ∧ v.length = payloadReads s.block.rq ∧
      beatsOf es = response s.block.rq v ∧ readsOf es = v.zipIdx

/-- 40_frame.md R85 at step level: of the bytes actually sent, whatever the host did to the payload space in between, the
second to last is the sum mod 256 of those before it. -/
def Obligations.SentChecksumIsTheSumOfSentBytes : Prop :=
  ∀ s t : State, OperationInv s → s.block.busy = true → s.block.fcode = 0 → s.host.rst = false → step s = .next t →
    t.block.busy = false →
    ∃ pre es, t.trace = pre ++ .accept s.block.rq :: es ∧
      let sent := (beatsOf es).map (·.data)
      7 ≤ sent.length ∧ sent.getLast? = some 0xAB ∧
        (sent[sent.length - 2]?).map BitVec.toNat = some (sumBytes (sent.take (sent.length - 2)) % 256)

/-- 42_sequencer.md R136, R138: with a host that takes every beat and makes no other move, a word offered to an idle
block is answered in one ACCEPT step and one step a beat, exactly, by its function-level response over the payload
space as it stands; then the block is idle, the rest of the offer waits, the payload space is unchanged. The step
count is 2 for a fault, 16 for an ALERT, `plen + 8` for a FRAME. -/
def Obligations.OperationRunsToCompletion : Prop :=
  ∀ (s : State) (r : Word) (rest : List Word),
    s.host.turns = [] → s.host.rst = false → s.host.outReady = true → s.block.busy = false →
    s.host.requests = r :: rest →
    let v := (List.range (payloadReads r)).map (Memory.read s.host.payload)
    (response r v).length =
      (if check r ≠ 0 then 1 else if r.toNat / 2 ^ 32 = 2 then 15 else r.toNat % 2 ^ 8 + 7) ∧
    ∃ t es, Host.Core.run Sys2Proof.core (1 + (response r v).length) s = .next t ∧
      t.block.busy = false ∧ t.host = { s.host with requests := rest } ∧
      t.trace = s.trace ++ .accept r :: es ∧ beatsOf es = response r v ∧ readsOf es = v.zipIdx

/-- 42_sequencer.md R140: once a run is over, whatever other turns are pending, it stays over, and a step shows nothing but
RESET. -/
def Obligations.OverRunStaysOver : Prop :=
  ∀ s t : State, runOver s = true → step s = .next t →
    runOver t = true ∧ ∃ es, t.trace = s.trace ++ es ∧ ∀ e ∈ es, e = .reset

/-- 10_state.md R19, 60_exceptions.md R153: from two idle blocks under the same host, whatever `rq`, `idx`, `sum` and
`fcode` an earlier operation, a fault or any number of resets left, every run shows the same events. -/
def Obligations.NoStatePersistsAcrossOperations : Prop :=
  ∀ (k : Nat) (s s' : State), s.block.busy = false → s'.block.busy = false → s'.host = s.host →
    ∃ t t' es, Host.Core.run Sys2Proof.core k s = .next t ∧ Host.Core.run Sys2Proof.core k s' = .next t' ∧
      t.trace = s.trace ++ es ∧ t'.trace = s'.trace ++ es ∧
      t'.block.busy = t.block.busy ∧ t'.host = t.host
end

