-- ==== Sys2Proof/Laws/Decode.lean ====
section
/-! SUPPORT. What a decoded instruction says of the word it was read from. -/

namespace Sys2Proof

/-- A field read back from its place: appending the fields below and above gives the word. -/
theorem bits_append (w : Word) (lo m n : Nat) : bits (lo + n) m w ++ bits lo n w = bits lo (m + n) w := by
  ext k hk
  simp only [bits, BitVec.getElem_append, BitVec.getElem_extractLsb']
  grind

/-- A single bit is a field of width one. -/
theorem ofBool_getLsbD (w : Word) (n : Nat) : BitVec.ofBool (w.getLsbD n) = bits n 1 w := by
  ext k hk
  simp [bits, show k = 0 by omega]

/-- The field that is the whole word. -/
theorem bits_all (w : Word) : bits 0 40 w = w := by
  ext k hk
  simp [bits]

/-- ACCEPT latches the word whole (10_state.md R12): the instruction read from a word keeps every bit of it. -/
theorem requestWord_of_decodeWord {w : Word} {i : Instr} (h : decodeWord w = .ok i) : requestWord i = w := by
  unfold decodeWord at h
  split_ifs at h with h1 h2 h3
  · obtain rfl := Except.ok.inj h
    change 0x01#8 ++ (bits 24 8 w ++ bits 16 8 w ++ bits 8 8 w ++ bits 0 8 w) = w
    rw [← h1, bits_append w 16 8 8, bits_append w 8 16 8, bits_append w 0 24 8, bits_append w 0 8 32, bits_all]
  · obtain rfl := Except.ok.inj h
    change 0x02#8 ++ (BitVec.ofBool (w.getLsbD 31) ++ BitVec.ofBool (w.getLsbD 30) ++ bits 28 2 w ++ bits 24 4 w
      ++ bits 20 4 w ++ bits 16 4 w ++ bits 8 8 w ++ bits 0 8 w) = w
    rw [← h2, ofBool_getLsbD, ofBool_getLsbD, bits_append w 30 1 1, bits_append w 28 2 2, bits_append w 24 4 4,
      bits_append w 20 8 4, bits_append w 16 12 4, bits_append w 8 16 8, bits_append w 0 24 8, bits_append w 0 8 32,
      bits_all]
  · obtain ⟨ha, hd, he⟩ := h3
    obtain rfl := Except.ok.inj h
    change 0xAA#8 ++ (0xD#4 ++ bits 24 4 w ++ 0xE#4 ++ bits 16 4 w ++ bits 8 8 w ++ bits 0 8 w) = w
    rw [← ha, ← hd, ← he, bits_append w 24 4 4, bits_append w 20 8 4, bits_append w 16 12 4, bits_append w 8 16 8,
      bits_append w 0 24 8, bits_append w 0 8 32, bits_all]

/-- The first word on offer is the one the decoded instruction stands for, however far the decoder looked. -/
theorem requestWord_of_decode {r : Word} {rest : List Word} {i : Instr} (h : decode (r :: rest) = .ok i) :
    requestWord i = r := by
  match rest, h with
  | [], h => exact requestWord_of_decodeWord h
  | [_], h => exact requestWord_of_decodeWord h
  | w1 :: w2 :: _, h =>
    rw [decode] at h
    split at h
    · next hw =>
      obtain rfl := Except.ok.inj h
      simp only [isAlertWire, Bool.and_eq_true, beq_iff_eq] at hw
      exact hw.1.1.symm
    · exact requestWord_of_decodeWord h

namespace Machine

/-- A latched word that decodes runs with the effective operands of its instruction (42_sequencer.md R135). -/
theorem operandsOf_frame {w : Word} {dest src msg plen : Byte} (h : decodeWord w = .ok (.frame dest src msg plen)) :
    operandsOf w = frameOperands dest src msg plen := by rw [operandsOf, h]

theorem operandsOf_alert {w : Word} {sel : Selection} (h : decodeWord w = .ok (.alert sel)) :
    operandsOf w = alertOperands sel := by rw [operandsOf, h]

end Machine

end Sys2Proof
end

