-- ==== Sys2Proof/Laws/PerInstr.lean ====
section
/-! SUPPORT. Families of statements, one lemma per instruction. -/

namespace Sys2Proof.Laws

open Sys2Proof

/-- The operation byte of each row: `0x01` FRAME, `0x02` ALERT (30_encoding.md R53); a wire pattern begins with `SOF`
(30_encoding.md R59). -/
def opByte : Instr → BitVec 8
  | .frame _ _ _ _ => 0x01
  | .alert _ => 0x02
  | .pktHdr _ _ _ _ => 0xAA
  | .pktAlert _ _ _ _ _ _ _ => 0xAA

/-- The first word of an encoding is `requestWord`, and its bits 39:32 are the row's operation byte. -/
def OpByte.Statement (i : Instr) : Prop := (encode i).head? = some (requestWord i) ∧ bits 32 8 (requestWord i) = opByte i

theorem OpByte.frame (dest src msg plen : BitVec 8) : OpByte.Statement (.frame dest src msg plen) :=
  ⟨rfl, by ext k hk; simp [bits, requestWord, opByte]; grind⟩

theorem OpByte.alert (sel : Selection) : OpByte.Statement (.alert sel) :=
  ⟨rfl, by ext k hk; simp [bits, requestWord, opByte]; grind⟩

theorem OpByte.pktHdr (dest src : BitVec 4) (msg len : BitVec 8) : OpByte.Statement (.pktHdr dest src msg len) :=
  ⟨rfl, by ext k hk; simp [bits, requestWord, opByte]; grind⟩

theorem OpByte.pktAlert (d1 d2 bar b1 b2 vol ck : BitVec 8) :
    OpByte.Statement (.pktAlert d1 d2 bar b1 b2 vol ck) :=
  ⟨rfl, show bits 32 8 0xAAD8EA3109#40 = 0xAA#8 by decide⟩

end Sys2Proof.Laws
end

