-- ==== Sys2Proof/Laws/Flags.lean ====
section
/-! SUPPORT. What `Check` says of the word of each instruction. -/

namespace Sys2Proof.Machine

open Sys2Proof

/-- FRAME faults exactly at `plen = 255` (40_frame.md R87). -/
theorem check_frame (dest src msg plen : BitVec 8) :
    check (requestWord (.frame dest src msg plen)) = if plen = 255 then 4 else 0 := by
  have hop : bits 32 8 (requestWord (.frame dest src msg plen)) = 0x01#8 := (Laws.OpByte.frame dest src msg plen).2
  have hlen : bits 0 8 (requestWord (.frame dest src msg plen)) = plen := by
    ext k hk; simp [bits, requestWord]; grind
  simp only [check, checkCause, hop, hlen, if_true]
  by_cases h : plen = 255#8 <;> simp [h, faultCode]

/-- ALERT faults with 2 at a reserved band, else with 3 at a strength above 8 (60_exceptions.md R151). -/
theorem check_alert (sel : Selection) : check (requestWord (.alert sel)) =
    if 5 ≤ sel.band.toNat then 2 else if 9 ≤ sel.strength.toNat then 3 else 0 := by
  have hop : bits 32 8 (requestWord (.alert sel)) = 0x02#8 := (Laws.OpByte.alert sel).2
  have hband : bits 24 4 (requestWord (.alert sel)) = sel.band := by
    ext k hk; simp [bits, requestWord, selectionBits]; grind
  have hstr : bits 20 4 (requestWord (.alert sel)) = sel.strength := by
    ext k hk; simp [bits, requestWord, selectionBits]; grind
  simp only [check, checkCause, hop, hband, hstr, BitVec.le_def, show (2#8 = 1#8) = False by decide, if_false, if_true,
    show (5#4).toNat = 5 from rfl, show (9#4).toNat = 9 from rfl]
  split_ifs <;> rfl

/-- A PKT.HDR pattern is no operation (30_encoding.md R53). -/
theorem check_pktHdr (dest src : BitVec 4) (msg len : BitVec 8) :
    check (requestWord (.pktHdr dest src msg len)) = 1 := by
  have hop : bits 32 8 (requestWord (.pktHdr dest src msg len)) = 0xAA#8 := (Laws.OpByte.pktHdr dest src msg len).2
  simp only [check, checkCause, hop, show (170#8 = 1#8) = False by decide, show (170#8 = 2#8) = False by decide,
    if_false]
  rfl

/-- Nor is the first word of a PKT.ALERT pattern. -/
theorem check_pktAlert (d1 d2 bar b1 b2 vol ck : BitVec 8) :
    check (requestWord (.pktAlert d1 d2 bar b1 b2 vol ck)) = 1 := by
  show check 0xAAD8EA3109#40 = 1
  decide

/-- A word that passes `Check` is one of the two operations, in range: FRAME with `plen <= 254`, or ALERT with
`band <= 4` and `strength <= 8` (42_sequencer.md R137 (1)). -/
theorem decodeWord_of_check {w : Word} (h : check w = 0) :
    (∃ dest src msg plen, decodeWord w = .ok (.frame dest src msg plen) ∧ plen.toNat ≤ 254) ∨
    (∃ sel, decodeWord w = .ok (.alert sel) ∧ sel.band ≤ 4#4 ∧ sel.strength ≤ 8#4) := by
  unfold check checkCause at h
  split_ifs at h with h1 h2 h3 h4 h5
  · simp [faultCode] at h
  · refine .inl ⟨_, _, _, _, by rw [decodeWord, if_pos h1], ?_⟩
    have := BitVec.toNat_inj.not.2 h2
    have := (bits 0 8 w).isLt
    simp only [show (255#8).toNat = 255 from rfl] at *
    omega
  · simp [faultCode] at h
  · simp [faultCode] at h
  · refine .inr ⟨selectionOf w, by rw [decodeWord, if_neg h1, if_pos h3], ?_, ?_⟩
    · simp only [selectionOf, BitVec.le_def] at *
      simp only [show (5#4).toNat = 5 from rfl, show (4#4).toNat = 4 from rfl] at *
      omega
    · simp only [selectionOf, BitVec.le_def] at *
      simp only [show (9#4).toNat = 9 from rfl, show (8#4).toNat = 8 from rfl] at *
      omega
  · simp [faultCode] at h

end Sys2Proof.Machine
end

