-- ==== Sys2Proof/Laws/Memory.lean ====
section
/-! SUPPORT. The payload space: a write keeps the canonical form, a read after a write. -/

namespace Sys2Proof.Machine

open Sys2Proof

/-- Every cell of a write's result is the new one or an old one. -/
theorem Memory.mem_write {m : Memory} {a : Nat} {v : Byte} {c : Host.Cell} (h : c ∈ Memory.write m a v) :
    (c = (a, v) ∧ v ≠ Config.unlistedByte) ∨ c ∈ m := by
  induction m with
  | nil =>
    rw [Memory.write] at h
    split at h
    · simp at h
    · next hv => exact .inl ⟨by simpa using h, hv⟩
  | cons d rest ih =>
    obtain ⟨b, w⟩ := d
    rw [Memory.write] at h
    split_ifs at h with h1 h2 h3 h4
    · exact .inr h
    · rcases List.mem_cons.1 h with rfl | h
      · exact .inl ⟨rfl, h2⟩
      · exact .inr h
    · exact .inr (List.mem_cons_of_mem _ h)
    · rcases List.mem_cons.1 h with rfl | h
      · exact .inl ⟨rfl, h4⟩
      · exact .inr (List.mem_cons_of_mem _ h)
    · rcases List.mem_cons.1 h with rfl | h
      · exact .inr List.mem_cons_self
      · exact (ih h).imp_right (List.mem_cons_of_mem _)

/-- A write at an eight-bit address keeps the canonical form. -/
theorem Memory.wf_write {m : Memory} {a : Nat} {v : Byte} (hm : Memory.wf m) (ha : a < 256) :
    Memory.wf (Memory.write m a v) := by
  refine ⟨?_, fun c hc => ?_⟩
  · induction m with
    | nil => rw [Memory.write]; split <;> simp
    | cons d rest ih =>
      obtain ⟨b, w⟩ := d
      obtain ⟨hp, hv⟩ := hm
      obtain ⟨hlt, hp⟩ := List.pairwise_cons.1 hp
      have hrest : Memory.wf rest := ⟨hp, fun c hc => hv c (List.mem_cons_of_mem _ hc)⟩
      rw [Memory.write]
      split_ifs with h1 h2 h3 h4
      · exact List.pairwise_cons.2 ⟨hlt, hp⟩
      · refine List.pairwise_cons.2 ⟨fun c hc => ?_, List.pairwise_cons.2 ⟨hlt, hp⟩⟩
        rcases List.mem_cons.1 hc with rfl | hc
        · exact h1
        · exact Nat.lt_trans h1 (hlt c hc)
      · exact hp
      · exact List.pairwise_cons.2 ⟨fun c hc => h3 ▸ hlt c hc, hp⟩
      · refine List.pairwise_cons.2 ⟨fun c hc => ?_, ih hrest⟩
        rcases Memory.mem_write hc with ⟨rfl, _⟩ | hc
        · change b < a
          omega
        · exact hlt c hc
  · rcases Memory.mem_write hc with ⟨rfl, hv⟩ | hc
    · exact ⟨ha, hv⟩
    · exact hm.2 c hc

/-- An address below every listed one reads as unlisted. -/
theorem Memory.read_of_lt {m : Memory} {a : Nat} (h : ∀ c ∈ m, a < c.1) : Memory.read m a = Config.unlistedByte := by
  induction m with
  | nil => rfl
  | cons d rest ih =>
    have hd := h d List.mem_cons_self
    rw [Memory.read, if_neg (Nat.ne_of_lt hd)]
    exact ih fun c hc => h c (List.mem_cons_of_mem _ hc)

/-- A read after a write: the new value at its address, the old value anywhere else. -/
theorem Memory.read_write {m : Memory} (hm : Memory.wf m) (a : Nat) (v : Byte) (b : Nat) :
    Memory.read (Memory.write m a v) b = if b = a then v else Memory.read m b := by
  induction m with
  | nil =>
    rw [Memory.write]
    split_ifs with h1 h2 <;> simp_all [Memory.read]
  | cons d rest ih =>
    obtain ⟨c, w⟩ := d
    obtain ⟨hp, hv⟩ := hm
    obtain ⟨hlt, hp⟩ := List.pairwise_cons.1 hp
    have hrest : Memory.wf rest := ⟨hp, fun c hc => hv c (List.mem_cons_of_mem _ hc)⟩
    have below : ∀ x, x ≤ c → Memory.read rest x = Config.unlistedByte := fun x hx =>
      Memory.read_of_lt fun e he => Nat.lt_of_le_of_lt hx (hlt e he)
    rcases Nat.lt_trichotomy a c with h | rfl | h
    · rw [Memory.write, if_pos h]
      split_ifs <;> grind [Memory.read]
    · rw [Memory.write, if_neg (Nat.lt_irrefl a), if_pos rfl]
      split_ifs <;> grind [Memory.read]
    · rw [Memory.write, if_neg (by omega), if_neg (by omega), Memory.read, ih hrest, Memory.read]
      split_ifs <;> first | rfl | (exfalso; omega)

/-- The payload space at reset is canonical. -/
theorem Memory.wf_reset : Memory.wf State.reset.host.payload := by decide

end Sys2Proof.Machine
end

