-- ==== Sys2Proof/Laws/Slots.lean ====
section
/-! SUPPORT. What the packet holds at each index, one lemma per range of 42_sequencer.md R134. -/

namespace Sys2Proof.Machine

open Sys2Proof

/-- The five bytes before the payload, as effective operands give them. -/
def headerBytes (o : Operands) : List Byte :=
  [sof, destByte o.dest, srcByte o.src, o.msg, BitVec.ofNat 8 (o.len + 1)]

theorem packetSlot_header {o : Operands} (hlen : o.len ≤ 254) (sum : Byte) {k : Nat} (hk : k < 5) :
    packetSlot o sum k = .value ((headerBytes o).getD k 0) := by
  interval_cases k <;> first | rfl | exact if_pos hlen

theorem packetSlot_payload (o : Operands) (sum : Byte) {k : Nat} (h5 : 5 ≤ k) (hk : k ≤ 4 + o.len) :
    packetSlot o sum k = payloadSlot o.payload (k - 5) := by
  unfold packetSlot
  rw [if_neg (by omega), if_neg (by omega), if_neg (by omega), if_neg (by omega), if_neg (by omega), if_pos hk]

theorem packetSlot_sum (o : Operands) (sum : Byte) : packetSlot o sum (5 + o.len) = .value sum := by
  unfold packetSlot
  rw [if_neg (by omega), if_neg (by omega), if_neg (by omega), if_neg (by omega), if_neg (by omega),
    if_neg (by omega), if_pos rfl]

theorem packetSlot_eof (o : Operands) (sum : Byte) : packetSlot o sum (6 + o.len) = .value eof := by
  unfold packetSlot
  rw [if_neg (by omega), if_neg (by omega), if_neg (by omega), if_neg (by omega), if_neg (by omega),
    if_neg (by omega), if_neg (by omega), if_pos rfl]

theorem payloadSlot_port {i : Nat} (h : i < 254) : payloadSlot .port i = .read (BitVec.ofNat 8 i) := if_pos h

theorem payloadSlot_fixed {bytes : List Byte} {i : Nat} {b : Byte} (h : bytes[i]? = some b) :
    payloadSlot (.fixed bytes) i = .value b := by simp [payloadSlot, h]

/-- A slot that reads is a payload byte of a port, at address `k - 5`, at most 253 (20_memory.md R31, R35). -/
theorem packetSlot_eq_read {o : Operands} {sum : Byte} {k : Nat} {a : BitVec 8} (h : packetSlot o sum k = .read a) :
    5 ≤ k ∧ k ≤ 4 + o.len ∧ a.toNat = k - 5 ∧ a.toNat < 254 ∧ o.payload = .port := by
  unfold packetSlot at h
  split_ifs at h with h0 h1 h2 h3 h4 hl h5 h6
  unfold payloadSlot maxPayload at h
  split at h
  · split_ifs at h with h7
    obtain rfl := Slot.read.inj h
    refine ⟨by omega, h5, ?_, ?_, by assumption⟩ <;> simp only [BitVec.toNat_ofNat] <;> omega
  · split at h <;> cases h
  · cases h

end Sys2Proof.Machine
end

