-- ==== Sys2Proof/Laws/State.lean ====
section
/-! SUPPORT. One lemma per field per update of the state. -/

namespace Sys2Proof.Machine

variable (s : State)

@[simp] theorem State.withBlock_block (b : Block) : (s.withBlock b).block = b := rfl
@[simp] theorem State.withBlock_host (b : Block) : (s.withBlock b).host = s.host := rfl
@[simp] theorem State.withBlock_trace (b : Block) : (s.withBlock b).trace = s.trace := rfl
@[simp] theorem State.withBlock_drawn (b : Block) : (s.withBlock b).drawn = s.drawn := rfl

@[simp] theorem State.withHost_block (h : HostSide) : (s.withHost h).block = s.block := rfl
@[simp] theorem State.withHost_host (h : HostSide) : (s.withHost h).host = h := rfl
@[simp] theorem State.withHost_trace (h : HostSide) : (s.withHost h).trace = s.trace := rfl
@[simp] theorem State.withHost_drawn (h : HostSide) : (s.withHost h).drawn = s.drawn := rfl

@[simp] theorem State.observe_block (es : List Event) : (s.observe es).block = s.block := rfl
@[simp] theorem State.observe_host (es : List Event) : (s.observe es).host = s.host := rfl
@[simp] theorem State.observe_trace (es : List Event) : (s.observe es).trace = s.trace ++ es := rfl
@[simp] theorem State.observe_drawn (es : List Event) : (s.observe es).drawn = s.drawn := rfl

@[simp] theorem State.draw_block (n : Nat) : (s.draw n).block = s.block := rfl
@[simp] theorem State.draw_host (n : Nat) : (s.draw n).host = s.host := rfl
@[simp] theorem State.draw_trace (n : Nat) : (s.draw n).trace = s.trace := rfl
@[simp] theorem State.draw_drawn (n : Nat) : (s.draw n).drawn = s.drawn + n := rfl

@[simp] theorem State.withTurns_block (ts : List Turn) : (s.withTurns ts).block = s.block := rfl
@[simp] theorem State.withTurns_turns (ts : List Turn) : (s.withTurns ts).host.turns = ts := rfl
@[simp] theorem State.withTurns_requests (ts : List Turn) : (s.withTurns ts).host.requests = s.host.requests := rfl
@[simp] theorem State.withTurns_outReady (ts : List Turn) : (s.withTurns ts).host.outReady = s.host.outReady := rfl
@[simp] theorem State.withTurns_rst (ts : List Turn) : (s.withTurns ts).host.rst = s.host.rst := rfl
@[simp] theorem State.withTurns_payload (ts : List Turn) : (s.withTurns ts).host.payload = s.host.payload := rfl
@[simp] theorem State.withTurns_trace (ts : List Turn) : (s.withTurns ts).trace = s.trace := rfl
@[simp] theorem State.withTurns_drawn (ts : List Turn) : (s.withTurns ts).drawn = s.drawn := rfl
@[simp] theorem State.withTurns_self : s.withTurns s.host.turns = s := rfl

@[simp] theorem State.withRequests_block (rs : List Word) : (s.withRequests rs).block = s.block := rfl
@[simp] theorem State.withRequests_requests (rs : List Word) : (s.withRequests rs).host.requests = rs := rfl
@[simp] theorem State.withRequests_outReady (rs : List Word) : (s.withRequests rs).host.outReady = s.host.outReady := rfl
@[simp] theorem State.withRequests_rst (rs : List Word) : (s.withRequests rs).host.rst = s.host.rst := rfl
@[simp] theorem State.withRequests_payload (rs : List Word) : (s.withRequests rs).host.payload = s.host.payload := rfl
@[simp] theorem State.withRequests_turns (rs : List Word) : (s.withRequests rs).host.turns = s.host.turns := rfl
@[simp] theorem State.withRequests_trace (rs : List Word) : (s.withRequests rs).trace = s.trace := rfl
@[simp] theorem State.withRequests_drawn (rs : List Word) : (s.withRequests rs).drawn = s.drawn := rfl

end Sys2Proof.Machine
end

