-- ==== Sys2Proof/Laws/Ops.lean ====
section
/-! SUPPORT. For each shared operation, once, everything it can do. -/

namespace Sys2Proof.Machine

open Sys2Proof

/-! ACCEPT. -/

/-- ACCEPT writes the five registers and shows one event; nothing else changes (42_sequencer.md R131). -/
theorem accept_eq (r : Word) (s : State) :
    accept r s = { s with
      block := { busy := true, rq := r, idx := 0, sum := 0, fcode := check r }
      trace := s.trace ++ [.accept r] } := rfl

@[simp] theorem accept_block (r : Word) (s : State) :
    (accept r s).block = { busy := true, rq := r, idx := 0, sum := 0, fcode := check r } := rfl
@[simp] theorem accept_host (r : Word) (s : State) : (accept r s).host = s.host := rfl
@[simp] theorem accept_trace (r : Word) (s : State) : (accept r s).trace = s.trace ++ [.accept r] := rfl
@[simp] theorem accept_drawn (r : Word) (s : State) : (accept r s).drawn = s.drawn := rfl

/-! EMIT-FAULT. -/

/-- EMIT-FAULT clears `busy` and sends the code; nothing else changes (42_sequencer.md R133). -/
theorem emitFault_eq (s : State) :
    emitFault s = { s with
      block := { s.block with busy := false }
      trace := s.trace ++ [.beat { fault := true, data := s.block.fcode.setWidth 8, last := true }] } := rfl

@[simp] theorem emitFault_block (s : State) : (emitFault s).block = { s.block with busy := false } := rfl
@[simp] theorem emitFault_host (s : State) : (emitFault s).host = s.host := rfl
@[simp] theorem emitFault_trace (s : State) : (emitFault s).trace =
    s.trace ++ [.beat { fault := true, data := s.block.fcode.setWidth 8, last := true }] := rfl
@[simp] theorem emitFault_drawn (s : State) : (emitFault s).drawn = s.drawn := rfl

/-! EMIT-BYTE. -/

/-- At every index an accepted operation reaches, `idx` moves on by one (10_state.md R13). -/
theorem nextIdx_of_ne {s : State} (h : s.block.idx ≠ 511#9) : nextIdx s = s.block.idx + 1 := if_neg h

/-- The slot an EMIT-BYTE step sends with operands `o`. -/
def currentSlot (o : Operands) (s : State) : Slot := packetSlot o s.block.sum s.block.idx.toNat

/-- EMIT-BYTE in one record: `idx` advances, `sum` takes the byte up to index `4 + L`, `busy` falls on the last, the
byte and its read are shown (42_sequencer.md R134). -/
theorem emitByte_eq (o : Operands) (s : State) :
    emitByte o s = { s with
      block := { s.block with
        sum := if s.block.idx.toNat ≤ 4 + o.len then s.block.sum + slotByte s (currentSlot o s) else s.block.sum
        idx := nextIdx s
        busy := if isLast o s.block.idx.toNat then false else s.block.busy }
      trace := s.trace ++ (slotReads s (currentSlot o s) ++
        [.beat { fault := false, data := slotByte s (currentSlot o s), last := isLast o s.block.idx.toNat }])
      drawn := s.drawn + slotDraws (currentSlot o s) } := rfl

@[simp] theorem emitByte_host (o : Operands) (s : State) : (emitByte o s).host = s.host := rfl
@[simp] theorem emitByte_rq (o : Operands) (s : State) : (emitByte o s).block.rq = s.block.rq := rfl
@[simp] theorem emitByte_fcode (o : Operands) (s : State) : (emitByte o s).block.fcode = s.block.fcode := rfl
@[simp] theorem emitByte_idx (o : Operands) (s : State) : (emitByte o s).block.idx = nextIdx s := rfl

/-- The last beat of an operation is at index `L + 6`. -/
theorem isLast_iff (o : Operands) (k : Nat) : isLast o k = true ↔ k = o.len + 6 := by
  simp only [isLast, overhead, beq_iff_eq]; omega

/-! RESET. -/

@[simp] theorem resetStep_busy (s : State) : (resetStep s).block.busy = false := rfl
@[simp] theorem resetStep_host (s : State) : (resetStep s).host = s.host := rfl
@[simp] theorem resetStep_trace (s : State) : (resetStep s).trace = s.trace ++ [.reset] := rfl

/-! The three phases of an operation. -/

/-- The next step of an operation is ACCEPT, EMIT-BYTE or EMIT-FAULT, by `busy` and `fcode` alone. -/
theorem runOperation_cases (r : Word) (o : Operands) (s : State) :
    (s.block.busy = false ∧ runOperation r o s = accept r s) ∨
    (s.block.busy = true ∧ s.block.fcode = 0 ∧ runOperation r o s = emitByte o s) ∨
    (s.block.busy = true ∧ s.block.fcode ≠ 0 ∧ runOperation r o s = emitFault s) := by
  cases hb : s.block.busy
  · exact .inl ⟨rfl, if_pos hb⟩
  · have hn : ¬ s.block.busy = false := by simp [hb]
    by_cases hf : s.block.fcode = 0
    · exact .inr (.inl ⟨rfl, hf, (if_neg hn).trans (if_pos hf)⟩)
    · exact .inr (.inr ⟨rfl, hf, (if_neg hn).trans (if_neg hf)⟩)

theorem runOperation_idle {r : Word} {o : Operands} {s : State} (h : s.block.busy = false) :
    runOperation r o s = accept r s := if_pos h

theorem runOperation_byte {r : Word} {o : Operands} {s : State} (h : s.block.busy = true) (hf : s.block.fcode = 0) :
    runOperation r o s = emitByte o s := by
  rcases runOperation_cases r o s with ⟨hb, _⟩ | ⟨_, _, e⟩ | ⟨_, hn, _⟩
  · simp [h] at hb
  · exact e
  · exact absurd hf hn

theorem runOperation_fault {r : Word} {o : Operands} {s : State} (h : s.block.busy = true) (hf : s.block.fcode ≠ 0) :
    runOperation r o s = emitFault s := by
  rcases runOperation_cases r o s with ⟨hb, _⟩ | ⟨_, hz, _⟩ | ⟨_, _, e⟩
  · simp [h] at hb
  · exact absurd hz hf
  · exact e

/-- The effective operands each instruction runs with. -/
def instrOperands : Instr → Operands
  | .frame dest src msg plen => frameOperands dest src msg plen
  | .alert sel => alertOperands sel
  | .pktHdr dest src msg len => strayOperands (requestWord (.pktHdr dest src msg len))
  | .pktAlert d1 d2 bar b1 b2 vol ck => strayOperands (requestWord (.pktAlert d1 d2 bar b1 b2 vol ck))

/-- Every instruction answers a next state: the next step of its operation. -/
theorem exec_eq (i : Instr) (s : State) : exec i s = .next (runOperation (requestWord i) (instrOperands i) s) := by
  cases i <;> rfl

/-- An instruction read from one word runs with the effective operands of that word. -/
theorem instrOperands_of_decodeWord {w : Word} {i : Instr} (h : decodeWord w = .ok i) :
    instrOperands i = operandsOf w := by
  have hw := requestWord_of_decodeWord h
  unfold operandsOf
  rw [h]
  cases i <;> simp only [instrOperands, hw]

/-- No operation touches the host's side. -/
@[simp] theorem runOperation_host (r : Word) (o : Operands) (s : State) : (runOperation r o s).host = s.host := by
  rcases runOperation_cases r o s with ⟨_, h⟩ | ⟨_, _, h⟩ | ⟨_, _, h⟩ <;> rw [h] <;> rfl

/-! The host's moves. -/

@[simp] theorem hostMove_block (m : HostMove) (s : State) : (hostMove m s).block = s.block := by cases m <;> rfl
@[simp] theorem hostMove_trace (m : HostMove) (s : State) : (hostMove m s).trace = s.trace := by cases m <;> rfl
@[simp] theorem hostMove_drawn (m : HostMove) (s : State) : (hostMove m s).drawn = s.drawn := by cases m <;> rfl
@[simp] theorem hostMove_turns (m : HostMove) (s : State) : (hostMove m s).host.turns = s.host.turns := by
  cases m <;> rfl

/-! A step. -/

/-- What the block does in its turn. -/
inductive BlockStep (s : State) : State → Prop where
  | reset (h : s.host.rst = true) : BlockStep s (resetStep s)
  | stall (hr : s.host.rst = false) (hb : s.block.busy = true) (ho : s.host.outReady = false) : BlockStep s s
  | idle (hr : s.host.rst = false) (hb : s.block.busy = false) (hq : s.host.requests = []) : BlockStep s s
  | accept (hr : s.host.rst = false) (hb : s.block.busy = false) (r : Word) (rest : List Word)
      (hq : s.host.requests = r :: rest) : BlockStep s (Machine.accept r (s.withRequests rest))
  | emit (hr : s.host.rst = false) (hb : s.block.busy = true) (ho : s.host.outReady = true) (hf : s.block.fcode = 0) :
      BlockStep s (emitByte (operandsOf s.block.rq) s)
  | fault (hr : s.host.rst = false) (hb : s.block.busy = true) (ho : s.host.outReady = true)
      (hf : s.block.fcode ≠ 0) : BlockStep s (emitFault s)

/-- The block's turn always answers a next state, and it is one of the cases of `BlockStep`. -/
theorem blockTurn_cases (s : State) : ∃ t, blockTurn s = .next t ∧ BlockStep s t := by
  unfold blockTurn
  by_cases hr : s.host.rst = true
  · exact ⟨_, if_pos hr, .reset hr⟩
  · rw [if_neg hr]
    replace hr : s.host.rst = false := by simpa using hr
    by_cases hb : s.block.busy = true
    · rw [if_pos hb]
      by_cases ho : s.host.outReady = true
      · rw [if_pos ho, continueInFlight]
        by_cases hf : s.block.fcode = 0
        · refine ⟨_, ?_, .emit hr hb ho hf⟩
          split
          · next i hi => rw [exec_eq, runOperation_byte hb hf, instrOperands_of_decodeWord hi]
          · next e he => rw [runIllegal, runOperation_byte hb hf, operandsOf, he]
        · refine ⟨_, ?_, .fault hr hb ho hf⟩
          split
          · rw [exec_eq, runOperation_fault hb hf]
          · rw [runIllegal, runOperation_fault hb hf]
      · rw [if_neg ho]
        exact ⟨s, rfl, .stall hr hb (by simpa using ho)⟩
    · rw [if_neg hb]
      replace hb : s.block.busy = false := by simpa using hb
      cases hq : s.host.requests with
      | nil => exact ⟨s, rfl, .idle hr hb hq⟩
      | cons r rest =>
        simp only [acceptOffer]
        cases hd : decode (r :: rest) with
        | ok i =>
          refine ⟨_, (exec_eq i _).trans ?_, .accept hr hb r rest hq⟩
          rw [runOperation_idle (by exact hb), requestWord_of_decode hd]
        | error e =>
          exact ⟨_, congrArg Host.Outcome.next (runOperation_idle (by exact hb)), .accept hr hb r rest hq⟩

/-! The turn taken off the schedule. -/

@[simp] theorem turnTaken_block (s : State) : (turnTaken s).block = s.block := rfl
@[simp] theorem turnTaken_trace (s : State) : (turnTaken s).trace = s.trace := rfl
@[simp] theorem turnTaken_drawn (s : State) : (turnTaken s).drawn = s.drawn := rfl
@[simp] theorem turnTaken_requests (s : State) : (turnTaken s).host.requests = s.host.requests := rfl
@[simp] theorem turnTaken_outReady (s : State) : (turnTaken s).host.outReady = s.host.outReady := rfl
@[simp] theorem turnTaken_rst (s : State) : (turnTaken s).host.rst = s.host.rst := rfl
@[simp] theorem turnTaken_payload (s : State) : (turnTaken s).host.payload = s.host.payload := rfl
@[simp] theorem turnTaken_turns (s : State) : (turnTaken s).host.turns = s.host.turns.tail := rfl

/-- With no turn pending, taking one off changes nothing. -/
theorem turnTaken_of_nil {s : State} (h : s.host.turns = []) : turnTaken s = s := by
  unfold turnTaken
  rw [h, List.tail_nil, ← h]
  rfl

/-- In the block's turn a step is the block's turn on the rest of the schedule. -/
theorem step_of_isBlockTurn {s : State} (h : isBlockTurn s = true) : step s = blockTurn (turnTaken s) := by
  match hs : s.host.turns with
  | [] => rw [turnTaken_of_nil hs]; unfold step takeTurn; rw [hs]
  | .block :: ts => unfold step takeTurn turnTaken; rw [hs]; rfl
  | .host m :: ts => simp [isBlockTurn, hs] at h

/-- What a step can do: a move of the host, or the block's turn. -/
theorem step_cases (s : State) :
    (∃ m ts, s.host.turns = .host m :: ts ∧ step s = .next (hostMove m (turnTaken s)) ∧ isBlockTurn s = false) ∨
    (isBlockTurn s = true ∧ ∃ t, step s = .next t ∧ BlockStep (turnTaken s) t) := by
  by_cases hb : isBlockTurn s = true
  · obtain ⟨t, ht, hs⟩ := blockTurn_cases (turnTaken s)
    exact .inr ⟨hb, t, (step_of_isBlockTurn hb).trans ht, hs⟩
  · match hs : s.host.turns with
    | [] => simp [isBlockTurn, hs] at hb
    | .block :: ts => simp [isBlockTurn, hs] at hb
    | .host m :: ts =>
      refine .inl ⟨m, ts, rfl, ?_, by simpa using hb⟩
      unfold step takeTurn turnTaken
      rw [hs]
      rfl

/-- A run of one step more, on any core. -/
theorem core_run_succ (M : Host.Core) {s t : M.State} (k : Nat) (h : M.step s = .next t) :
    M.run (k + 1) s = M.run k t := by
  simp only [Host.Core.run, h]

/-- A run of one step more goes on from the state that step answers. -/
theorem run_succ {s t : State} (k : Nat) (h : step s = .next t) :
    Host.Core.run Sys2Proof.core (k + 1) s = Host.Core.run Sys2Proof.core k t :=
  core_run_succ Sys2Proof.core k h

end Sys2Proof.Machine
end

