-- ==== Sys2Proof/Laws/Ports.lean ====
section
/-! SUPPORT. What the output ports show, once for each phase of the block. -/

namespace Sys2Proof.Machine

open Sys2Proof

@[simp] theorem Slot.address_read (a : BitVec 8) : (Slot.read a).address = some a := rfl
@[simp] theorem Slot.address_value (b : Byte) : (Slot.value b).address = none := rfl
@[simp] theorem Slot.address_unstated : Slot.unstated.address = none := rfl

theorem drivenAddress_of_rst {s : State} (h : s.host.rst = true) : drivenAddress s = none := if_pos h

theorem drivenAddress_of_not_rst {s : State} (h : s.host.rst = false) : drivenAddress s = (offeredSlot s).address :=
  if_neg (by simp [h])

/-- Idle: `pl_re` is 0 where a RESET or an ACCEPT is at hand. -/
theorem ports_idle {s : State} (h : s.block.busy = false) :
    ports s = { reqReady := true, outValid := false, outFault := false, outData := none, outLast := none,
                plRe := if s.host.rst || !s.host.requests.isEmpty then some false else none, plAddr := none } :=
  if_pos h

/-- A fault beat on offer. -/
theorem ports_fault {s : State} (h : s.block.busy = true) (hf : s.block.fcode ≠ 0) :
    ports s = { reqReady := false, outValid := true, outFault := true, outData := some (s.block.fcode.setWidth 8),
                outLast := some true, plRe := some false, plAddr := none } :=
  (if_neg (by simp [h])).trans (if_neg hf)

/-- A packet beat on offer that the host can take. -/
theorem ports_byte {s : State} (h : s.block.busy = true) (hf : s.block.fcode = 0) (hr : s.host.rst = false) :
    ports s = { reqReady := false, outValid := true, outFault := false,
                outData := some (slotByte s (offeredSlot s)),
                outLast := some (isLast (operandsOf s.block.rq) s.block.idx.toNat),
                plRe := some (offeredSlot s).address.isSome, plAddr := (offeredSlot s).address } := by
  unfold ports
  rw [if_neg (by simp [h]), if_pos hf, drivenAddress_of_not_rst hr, if_pos rfl]

end Sys2Proof.Machine
end

