-- ==== Sys2Proof/Tests/Slice0.lean ====
section
/-! SUPPORT. Tests on fixed values, each from the spec: words of 30_encoding.md, vectors and programs of
95_test_vectors.md. Then one witness for every obligation that has hypotheses. -/

namespace Sys2Proof.Tests

open Sys2Proof Sys2Proof.Machine

/-- The next state, if there is one. -/
def nextOf (o : Host.Outcome State Fault Refusal) : Option State :=
  match o with
  | .next t => some t
  | _ => none

/-- An idle block with these words on offer. -/
def offering (rs : List Word) : State := State.reset.withRequests rs

/-- The operation of word `r` in flight. -/
def inFlight (r : Word) (idx : BitVec 9) (sum : Byte) : State :=
  State.reset.withBlock { busy := true, rq := r, idx := idx, sum := sum, fcode := check r }

/-- A state whose payload space holds this. -/
def holding (m : Memory) (s : State) : State := s.withHost { s.host with payload := m }

/-- A selection with nothing selected. -/
def nothing : Selection :=
  { blink := false, digitValid := false, dir := 0, band := 0, strength := 0, digit := 0, mainVol := 0, muteVol := 0 }

/-- The selection of vector A1. -/
def selA1 : Selection :=
  { blink := false, digitValid := true, dir := 1, band := 3, strength := 3, digit := 5, mainVol := 8, muteVol := 0 }

/-! ## Well-formedness: one term refused by each check -/

theorem test_wf_frame_refuses_plen_255 : WellFormed (.frame 0 0 0 255) = false := by decide
theorem test_wf_frame_accepts_plen_254 : WellFormed (.frame 0xFF 0xFF 0xFF 254) = true := by decide
theorem test_wf_alert_refuses_band_5 : WellFormed (.alert { nothing with band := 5 }) = false := by decide
theorem test_wf_alert_refuses_strength_9 : WellFormed (.alert { nothing with strength := 9 }) = false := by decide
theorem test_wf_alert_accepts_limits : WellFormed (.alert { nothing with band := 4, strength := 8, digit := 15 }) = true := by
  decide
theorem test_wf_header_refuses_length_0 : WellFormed (.pktHdr 8 10 0x31 0) = false := by decide
theorem test_wf_packet_accepts_a1 : WellFormed (.pktAlert 0x6D 0x6D 0x07 0x24 0x24 0x80 0x9F) = true := by decide
theorem test_wf_packet_refuses_digit_image2 : WellFormed (.pktAlert 0x6D 0x06 0x07 0x24 0x24 0x80 0x38) = false := by
  decide
theorem test_wf_packet_refuses_band_image2 : WellFormed (.pktAlert 0x6D 0x6D 0x07 0x24 0x04 0x80 0x7F) = false := by
  decide
theorem test_wf_packet_refuses_checksum : WellFormed (.pktAlert 0x6D 0x6D 0x07 0x24 0x24 0x80 0x9E) = false := by decide

/-! ## Decoding of words written out from the encodings -/

/-- F2 bit by bit (30_encoding.md R51). -/
theorem test_decode_frame : decode [0b0000000100011000111110100011000100000001#40] = .ok (.frame 0x18 0xFA 0x31 0x01) := by
  decide
/-- A1 bit by bit (30_encoding.md R52). -/
theorem test_decode_alert : decode [0b0000001001010011001101010000100000000000#40] = .ok (.alert selA1) := by decide
/-- A8: blink clear, digit 9, LASER, SIDE, strength 1, volumes 0x1A and 0xF3. -/
theorem test_decode_alert_a8 : decodeTableWord 40 0x0261191AF3 = some (.alert
    { blink := false, digitValid := true, dir := 2, band := 1, strength := 1, digit := 9, mainVol := 0x1A,
      muteVol := 0xF3 }) := by decide
/-- The header of F12 bit by bit (30_encoding.md R59). -/
theorem test_decode_header : decode [0b1010101011010001111000100000001111111111#40] = .ok (.pktHdr 1 2 3 0xFF) := by
  decide
/-- The packet of A7 as one 120-bit number (30_encoding.md R61, R66). -/
theorem test_decode_packet : decodeTableWord 120 0xAAD8EA31097F7FFF88885000FF02AB
    = some (.pktAlert 0x7F 0x7F 0xFF 0x88 0x88 0xFF 0x02) := by decide
theorem test_decode_reserved : decode [0x0500000000#40] = .error (.illegalOp 5) := by decide
theorem test_encode_frame : encode (.frame 0x18 0xFA 0x31 0x01) = [0x0118FA3101#40] := by decide
theorem test_encode_alert : encode (.alert selA1) = [0x0253350800#40] := by decide
theorem test_encode_header : encode (.pktHdr 1 2 3 0xFF) = [0xAAD1E203FF#40] := by decide
theorem test_encode_packet : encode (.pktAlert 0x7F 0x7F 0xFF 0x88 0x88 0xFF 0x02)
    = [0xAAD8EA3109#40, 0x7F7FFF8888#40, 0x5000FF02AB#40] := by decide
/-- A1 in the notation of 30_encoding.md R64. -/
theorem test_text_alert : requestText (.alert selA1)
    = some "ALERT digit=5 band=K dir=FRONT blink=0 strength=3 main=8 mute=0" := by decide
/-- A5 has a text; A6, which differs from it in the ignored digit, has no form in R64. -/
theorem test_text_no_digit :
    requestText (.alert nothing) = some "ALERT digit=none band=none dir=none blink=0 strength=0 main=0 mute=0" ∧
    requestText (.alert { nothing with digit := 5 }) = none := by decide
/-- The typed selection of A1 is its request word. -/
theorem test_typed_selection : alertRequest
    { digit := some 5, band := some .k, dir := some .front, blink := false, strength := 3, mainVol := 8, muteVol := 0 }
    = .alert selA1 := by decide

/-! ## One step of each instruction -/

/-- P4, second request, index 5: `Read(0, FF)`, beat `(0, FF, 0)`, `sum` from 7B to 7A. -/
theorem test_frame_payload_byte :
    (nextOf (step (holding [(0, 0xFF), (1, 0xFF), (2, 0xFF)] (inFlight 0x010F0FFF03 5 0x7B)))).map
      (fun t => (t.trace, t.block.sum, t.block.idx))
    = some ([.reset, .read 0 0xFF, .beat { fault := false, data := 0xFF, last := false }], 0x7A, 6) := by decide

/-- X4: `plen = 255` is accepted with code 4. -/
theorem test_frame_plen_255 :
    (nextOf (step (State.reset.withFetchWord 40 0x01000000FF))).map (fun t => (t.block.busy, t.block.fcode))
    = some (true, 4) := by decide

/-- P3, third request, index 9: `band_image2` blanked, beat `(0, 00, 0)`. -/
theorem test_alert_blanked_byte :
    (nextOf (step (inFlight 0x02D3350800 9 0x3E))).map (fun t => (t.trace, t.block.sum))
    = some ([.reset, .beat { fault := false, data := 0x00, last := false }], 0x3E) := by decide

/-- A13: `band = 5` and `strength = 9` give code 2. -/
theorem test_alert_lower_code_wins :
    (nextOf (step (State.reset.withFetchWord 40 0x0205900000))).map (fun t => (t.block.rq, t.block.fcode))
    = some (0x0205900000, 2) := by decide

/-- A packet header as a request: code 1. -/
theorem test_header_is_illegal :
    (nextOf (step (State.reset.withFetchWord 40 0xAAD8EA3109))).map (fun t => (t.block.rq, t.block.fcode))
    = some (0xAAD8EA3109, 1) := by decide

/-- Its fault beat `(1, 01, 1)`, then idle. -/
theorem test_header_fault_beat :
    (nextOf (exec (.pktHdr 8 10 0x31 9) (inFlight 0xAAD8EA3109 0 0))).map (fun t => (t.trace, t.block.busy))
    = some ([.reset, .beat { fault := true, data := 0x01, last := true }], false) := by decide

/-- An alert packet as three request words: the first is taken with code 1, the others stay on offer. -/
theorem test_packet_is_illegal :
    (nextOf (step (State.reset.withFetchWord 120 0xAAD8EA31096D6D0724245000809FAB))).map
      (fun t => (t.block.rq, t.block.fcode, t.host.requests))
    = some (0xAAD8EA3109, 1, [0x6D6D072424, 0x5000809FAB]) := by decide

/-- X2: a reserved operation byte that is no row of the table. -/
theorem test_reserved_is_illegal :
    (nextOf (step (offering [0x0300000000]))).map (fun t => (t.block.fcode, t.host.requests)) = some (1, []) := by decide

/-- 70_reset_and_hazards.md R170: a RESET in the middle of a packet. -/
theorem test_reset_idles :
    (nextOf (step ((inFlight 0x0253350800 6 0x13).withHost { State.reset.host with rst := true }))).map
      (fun t => (t.block.busy, t.trace)) = some (false, [.reset, .reset]) := by decide

/-! ## The function level -/

/-- A9. -/
theorem test_packet_a9 : alertPacket
    { blink := true, digitValid := true, dir := 3, band := 1, strength := 8, digit := 0, mainVol := 0xFF, muteVol := 0 }
    = some [0xAA, 0xD8, 0xEA, 0x31, 0x09, 0x3F, 0x00, 0xFF, 0x81, 0x00, 0x50, 0x00, 0xF0, 0xA5, 0xAB] := by decide
/-- F8, a zero checksum. -/
theorem test_frame_f8 : frame 0 0 0 [0xA4] = some [0xAA, 0xD0, 0xE0, 0x00, 0x02, 0xA4, 0x00, 0xAB] := by decide
/-- F9, ids above 15. -/
theorem test_frame_f9 : frame 0xF8 0xEA 0x56 [] = some [0xAA, 0xD8, 0xEA, 0x56, 0x01, 0xC3, 0xAB] := by decide

/-! ## Witnesses: concrete states and operands that meet the hypotheses of an obligation, together -/

/-- The state with one more turn to come, soonest. -/
def withTurn (u : Turn) (s : State) : State := s.withTurns (u :: s.host.turns)

/-- The block's turn, scheduled or by default. -/
theorem witness_block_turn : isBlockTurn State.reset = true ∧ isBlockTurn (withTurn .block State.reset) = true := by
  decide

theorem witness_DecoderFollowsMatchAndMask :
    let w : Word := 0xAAD0D00000
    w &&& 0xFF00000000#40 ≠ 0x0100000000#40 ∧ w &&& 0xFF00000000#40 ≠ 0x0200000000#40 ∧
      w &&& 0xFFF0F00000#40 ≠ 0xAAD0E00000#40 := by decide

theorem witness_StepRunsOfferedInstruction :
    ∀ p ∈ [([0x0118FA3101#40], Instr.frame 0x18 0xFA 0x31 0x01), ([0x0253350800], .alert selA1),
        ([0xAAD8EA3109, 0], .pktHdr 8 10 0x31 9),
        ([0xAAD8EA3109, 0x7F7FFF8888, 0x5000FF02AB, 0], .pktAlert 0x7F 0x7F 0xFF 0x88 0x88 0xFF 0x02)],
      let s := withTurn .block (offering p.1)
      isBlockTurn s = true ∧ s.host.rst = false ∧ s.block.busy = false ∧ decode s.host.requests = .ok p.2 := by decide

theorem witness_StepRunsInFlightInstruction :
    ∀ p ∈ [(0x0118FA3101#40, Instr.frame 0x18 0xFA 0x31 0x01), (0x0253350800, .alert selA1),
        (0xAAD8EA3109, .pktHdr 8 10 0x31 9)],
      let s := inFlight p.1 0 0
      isBlockTurn s = true ∧ s.host.rst = false ∧ s.block.busy = true ∧ s.host.outReady = true ∧
        decodeWord s.block.rq = .ok p.2 := by decide

/-- FrameAccepted, AlertAccepted, PacketHeaderIsIllegalRequest, AlertPacketIsIllegalRequest. -/
theorem witness_accepted : State.reset.block.busy = false := by decide

theorem witness_AcceptLatchesAnyWord_idle :
    ∀ p ∈ [(0x0000000000#40, [0#40]), (0xFFFFFFFFFF, [])], let s := offering (p.1 :: p.2)
      isBlockTurn s = true ∧ s.host.rst = false ∧ s.block.busy = false ∧ s.host.requests = p.1 :: p.2 := by decide

theorem witness_AcceptLatchesAnyWord_busy :
    let s := (inFlight 0x0253350800 14 0x9F).withRequests [0x0200000000]
    isBlockTurn s = true ∧ s.block.busy = true ∧ (nextOf (step s)).isSome := by decide

/-- Every clause of the case analysis at its first and last index, for `plen` 3. -/
theorem witness_FrameSendsItsByte :
    ∀ s ∈ [0, 1, 2, 3, 4, 5, 7, 8, 9].map (inFlight 0x0118FA3103 · 0),
      s.block.busy = true ∧ s.block.fcode = 0 ∧ 3#8 ≠ 255 ∧ s.block.idx.toNat ≤ (3#8).toNat + 6 := by decide

/-- The shortest and the longest FRAME: no payload clause; the last payload byte, the checksum, the last byte. -/
theorem witness_FrameSendsItsByte_lengths :
    (∀ s ∈ [4, 5, 6].map (inFlight 0x0118FA3100 · 0),
      s.block.busy = true ∧ s.block.fcode = 0 ∧ 0#8 ≠ 255 ∧ s.block.idx.toNat ≤ (0#8).toNat + 6) ∧
    (∀ s ∈ [5, 258, 259, 260].map (inFlight 0x0118FA31FE · 0),
      s.block.busy = true ∧ s.block.fcode = 0 ∧ 254#8 ≠ 255 ∧ s.block.idx.toNat ≤ (254#8).toNat + 6) := by decide

theorem witness_AlertSendsItsByte :
    ∀ p ∈ [(selA1, 0#9), (selA1, 4), (selA1, 5), (nothing, 12), (selA1, 13), ({ nothing with band := 4, strength := 8 }, 14)],
      let sel := p.1
      let s := inFlight (requestWord (.alert sel)) p.2 0
      s.block.busy = true ∧ s.block.fcode = 0 ∧ sel.band ≤ 4#4 ∧ sel.strength ≤ 8#4 ∧ s.block.idx.toNat ≤ 14 := by decide

theorem witness_FaultBeatEndsTheOperation :
    ∀ s ∈ [inFlight 0x0000000000 0 0, inFlight 0x0205900000 0 0, inFlight 0x0200900000 0 0, inFlight 0x01000000FF 0 0],
      isBlockTurn s = true ∧ s.host.rst = false ∧ s.block.busy = true ∧ s.block.fcode ≠ 0 ∧ s.host.outReady = true := by
  decide

theorem witness_BackPressureHoldsTheBeat :
    let s := (inFlight 0x0253350800 6 0x13).withHost { State.reset.host with outReady := false }
    isBlockTurn s = true ∧ s.host.rst = false ∧ s.block.busy = true ∧ s.host.outReady = false := by decide

/-- A payload beat, another packet beat, a fault beat. -/
theorem witness_PortsShowTheNextBeat :
    ∀ s ∈ [inFlight 0x0118FA3101 5 0x9F, inFlight 0x0118FA3101 7 0xA0, inFlight 0 0 0],
      isBlockTurn s = true ∧ s.host.rst = false ∧ s.block.busy = true ∧ s.host.outReady = true := by decide

/-- The address driven is the address read, and no other beat drives one. -/
theorem witness_PortsShowTheNextBeat_read :
    (ports (inFlight 0x0118FA3101 5 0x9F)).plAddr = some 0 ∧ (ports (inFlight 0x0118FA3101 6 0xA0)).plAddr = none := by
  decide

/-- An ACCEPT, a payload beat, another beat, a fault beat, a RESET at a payload beat. -/
theorem witness_PayloadPortMarksTheReads :
    ∀ s ∈ [offering [0x0253350800], inFlight 0x0118FA3101 5 0x9F, inFlight 0x0118FA3101 6 0xA0, inFlight 0 0 0,
        (inFlight 0x0118FA3101 5 0x9F).withHost { State.reset.host with rst := true }],
      isBlockTurn s = true ∧ (nextOf (step s)).map (fun t => decide (t.trace = s.trace)) = some false := by decide

/-- 20_memory.md R31: `pl_re` in the same five steps. -/
theorem test_pl_re :
    [offering [0x0253350800], inFlight 0x0118FA3101 5 0x9F, inFlight 0x0118FA3101 6 0xA0, inFlight 0 0 0,
        (inFlight 0x0118FA3101 5 0x9F).withHost { State.reset.host with rst := true }].map (fun s => (ports s).plRe)
    = [some false, some true, some false, some false, some false] := by decide

/-- Each of the three clauses: a word handed over, a beat taken, neither. -/
theorem witness_HandshakesDecideTheStep :
    (let s := offering [0x0253350800];
      isBlockTurn s = true ∧ s.host.rst = false ∧ (inputPorts s).reqValid = true ∧ (ports s).reqReady = true) ∧
    (let s := inFlight 0x0253350800 0 0;
      isBlockTurn s = true ∧ s.host.rst = false ∧ (ports s).outValid = true ∧ (inputPorts s).outReady = true) ∧
    (let s := State.reset;
      isBlockTurn s = true ∧ s.host.rst = false ∧ ¬((inputPorts s).reqValid = true ∧ (ports s).reqReady = true) ∧
        ¬((ports s).outValid = true ∧ (inputPorts s).outReady = true)) := by decide

/-- InstructionsLeaveTheHostAlone: every instruction answers a next state, idle and in flight. -/
theorem witness_InstructionsLeaveTheHostAlone :
    ∀ i ∈ [Instr.frame 0x18 0xFA 0x31 0x01, .alert selA1, .pktHdr 8 10 0x31 9, .pktAlert 0 0 0 0 0 0 0xF6],
      (nextOf (exec i State.reset)).isSome ∧ (nextOf (exec i (inFlight (requestWord i) 0 0))).isSome := by decide

/-- A faulting and a successful operation in flight; the latter past its payload. -/
theorem witness_BeatsKeepTheLatchedRequest :
    (let s := inFlight 0xAAD8EA3109 0 0;
      s.block.busy = true ∧ s.block.fcode ≠ 0 ∧ (nextOf (exec (.pktHdr 8 10 0x31 9) s)).isSome) ∧
    (let s := inFlight 0x0253350800 14 0x9F;
      s.block.busy = true ∧ s.block.fcode = 0 ∧ s.block.idx ≠ 511 ∧ decodeWord s.block.rq = .ok (.alert selA1) ∧
        (operandsOf s.block.rq).len + 4 < s.block.idx.toNat ∧ (nextOf (exec (.alert selA1) s)).isSome) ∧
    (operandsOf 0x0253350800).len + 4 < 13 := by decide

/-- The first and the last payload byte of the longest packet are read. -/
theorem witness_OnlyFrameReadsThePayload :
    ∀ p ∈ [(5#9, 0#8), (258, 253)], ∃ v b,
      (nextOf (exec (.frame 0 0 0 254) (inFlight 0x01000000FE p.1 0))).map State.trace
        = some (State.reset.trace ++ [.read p.2 v, .beat b]) := by
  intro p hp
  fin_cases hp
  · exact ⟨0, { fault := false, data := 0, last := false }, by decide⟩
  · exact ⟨0, { fault := false, data := 0, last := false }, by decide⟩

/-- Each of the four cases of OnlyTheseTransitions starts somewhere. -/
theorem witness_OnlyTheseTransitions :
    ∀ s ∈ [State.reset, offering [0], inFlight 0x0253350800 14 0x9F, inFlight 0x0253350800 13 0x9F, inFlight 0 0 0],
      isBlockTurn s = true ∧ s.host.rst = false ∧ (nextOf (step s)).isSome := by decide

/-- A store at each end of the payload space, and each other move. -/
theorem witness_HostMovesLeaveTheBlockAlone :
    ∀ m ∈ [HostMove.store 0 1, .store 255 0, .offer [0x0253350800], .offer [], .ready false, .reset true],
      let s := withTurn (.host m) (holding [(3, 7), (255, 9)] State.reset)
      s.host.turns = .host m :: [] ∧ Memory.wf s.host.payload := by decide

/-- Stores at the boundary address and above. -/
theorem witness_DutyKeepsThePayload :
    let s := withTurn (.host (.store 3 1)) (holding [(0, 1), (2, 3), (3, 4)] State.reset)
    Memory.wf s.host.payload ∧ (∀ a v, Turn.host (.store a v) ∈ s.host.turns → 3 ≤ a.toNat) ∧
      ∃ t, Host.Core.run Sys2Proof.core 1 s = .next t := by
  refine ⟨by decide, ?_, _, rfl⟩
  intro a v h
  obtain ⟨rfl, rfl⟩ : a = 3 ∧ v = 1 := by simpa [withTurn, holding, State.withTurns, State.withHost, State.reset] using h
  decide

theorem witness_ResetStepIdlesTheBlock :
    ∀ b ∈ [State.reset.block, (inFlight 0x0253350800 6 0x13).block],
      let s := (State.reset.withBlock b).withHost { State.reset.host with rst := true }
      isBlockTurn s = true ∧ s.host.rst = true := by decide

/-- SegmentTable: its first and last digit. -/
theorem witness_SegmentTable : seg 0 = some 0x3F ∧ seg 9 = some 0x6F ∧ seg 10 = none ∧ 9#4 ≤ 9#4 := by decide

/-- BandImageTable: two set bits to compare, and the first reserved code. -/
theorem witness_BandImageTable :
    bandImage1 4 3 = some 0x88 ∧ bandImage1 5 0 = none ∧ (0x88#8).getLsbD 3 = true ∧ (0x88#8).getLsbD 7 = true := by decide

theorem witness_StrengthBarIsARun : (8#4).toNat ≤ 8 ∧ 8 < (9#4).toNat ∧ bar 0 = some 0x00 ∧ bar 8 = some 0xFF := by decide

/-- AlertPayloadLayout, at both limits. -/
theorem witness_AlertPayloadLayout :
    ∀ sel ∈ [nothing, { selA1 with band := 4, strength := 8 }], sel.band.toNat ≤ 4 ∧ sel.strength.toNat ≤ 8 := by decide

/-- AlertPacketShape and AlertIsFrameOfItsPayload: a selection with a payload. -/
theorem witness_alert_payload : alertPayload selA1 = some [0x6D, 0x6D, 0x07, 0x24, 0x24, 0x50, 0x00, 0x80] := by decide

/-- A1 and A2. -/
theorem witness_BlinkChangesImage2Only :
    alertPayload { selA1 with blink := false } = some [0x6D, 0x6D, 0x07, 0x24, 0x24, 0x50, 0x00, 0x80] ∧
    alertPayload { selA1 with blink := true } = some [0x6D, 0x00, 0x07, 0x24, 0x00, 0x50, 0x00, 0x80] := by decide

/-- FramePacketShape: both sides of the length bound, and operands that differ only in what is ignored. -/
theorem witness_FramePacketShape :
    (List.replicate 254 (0xFF#8)).length ≤ 254 ∧ 255 ≤ (List.replicate 255 (0xFF#8)).length ∧
    0x18 % 16 = 0x08 % 16 ∧ 0xFA % 16 = 0x0A % 16 ∧ 0x131 % 256 = 0x31 % 256 ∧
    [1#8, 3#8].length = [2#8, 2#8].length ∧ sumBytes [1, 3] % 256 = sumBytes [2, 2] % 256 :=
  ⟨List.length_replicate.le, List.length_replicate.ge, by decide⟩

/-- ChecksumRoundTrip, ReaderFindsTheEnd, PacketsMatchTheWirePatterns: F2. -/
theorem witness_packet : frame 0x18 0xFA 0x31 [0x01] = some [0xAA, 0xD8, 0xEA, 0x31, 0x02, 0x01, 0xA0, 0xAB] := by decide

/-- PacketsMatchTheWirePatterns: A1. -/
theorem witness_alert_packet : alertPacket selA1
    = some [0xAA, 0xD8, 0xEA, 0x31, 0x09, 0x6D, 0x6D, 0x07, 0x24, 0x24, 0x50, 0x00, 0x80, 0x9F, 0xAB] := by decide

/-- Operands and words of each clause that differ in ignored bits. -/
theorem witness_IgnoredBitsDoNotShow :
    ((0x18#8).toNat % 16 = (0x08#8).toNat % 16 ∧ (0xFA#8).toNat % 16 = (0x0A#8).toNat % 16) ∧
    (let sel := { nothing with digit := 5, mainVol := 0x1A, muteVol := 0xF3 };
      let sel' := { nothing with digit := 6, mainVol := 0x0A, muteVol := 0x03 };
      sel'.blink = sel.blink ∧ sel'.digitValid = sel.digitValid ∧ sel'.dir = sel.dir ∧ sel'.band = sel.band ∧
        sel'.strength = sel.strength ∧ (sel.digitValid = true → sel'.digit = sel.digit) ∧
        sel'.mainVol.toNat % 16 = sel.mainVol.toNat % 16 ∧ sel'.muteVol.toNat % 16 = sel.muteVol.toNat % 16) ∧
    ((0xFF12345678#40).toNat / 2 ^ 32 ≠ 1 ∧ (0xFF12345678#40).toNat / 2 ^ 32 ≠ 2 ∧
      (0xFF00000000#40).toNat / 2 ^ 32 = (0xFF12345678#40).toNat / 2 ^ 32) := by decide

theorem witness_StepKeepsMemoryCanonical :
    let s := withTurn (.host (.store 1 2)) (holding [(0, 1), (2, 3), (255, 4)] State.reset)
    Memory.wf s.host.payload ∧ (nextOf (step s)).isSome := by decide

/-- The last beat of F2 is owed: seven bytes have been sent. -/
def lastBeatOwed : State :=
  (inFlight 0x0118FA3101 7 0xA0).observe
    (.accept 0x0118FA3101 ::
      ([0xAA, 0xD8, 0xEA, 0x31, 0x02].map fun b => .beat { fault := false, data := b, last := false }) ++
      [.read 0 0x01, .beat { fault := false, data := 0x01, last := false },
        .beat { fault := false, data := 0xA0, last := false }])

theorem lastBeatOwed_inv : OperationInv lastBeatOwed := by
  refine fun _ => ⟨by decide, [.reset], lastBeatOwed.trace.drop 2, [0x01], by decide, ?_⟩
  unfold inFlightAfter
  decide

/-- StepKeepsOperationInv, LastBeatClosesTheResponse, SentChecksumIsTheSumOfSentBytes: a packet. -/
theorem witness_last_beat : OperationInv lastBeatOwed ∧ lastBeatOwed.block.busy = true ∧ lastBeatOwed.block.fcode = 0 ∧
    lastBeatOwed.host.rst = false ∧ (nextOf (step lastBeatOwed)).map (·.block.busy) = some false :=
  ⟨lastBeatOwed_inv, by decide⟩

/-- LastBeatClosesTheResponse: a fault beat owed (X1). -/
theorem witness_fault_beat :
    let s := (inFlight 0x0000000000 0 0).observe [.accept 0x0000000000]
    OperationInv s ∧ s.block.busy = true ∧ s.host.rst = false ∧ (nextOf (step s)).map (·.block.busy) = some false := by
  refine ⟨fun _ => ⟨by decide, [.reset], [], [], by decide, ?_⟩, by decide⟩
  unfold inFlightAfter
  decide

/-- OperationRunsToCompletion: a fault, an ALERT, the shortest and the longest FRAME. -/
theorem witness_OperationRunsToCompletion :
    ∀ p ∈ [(0x0000000000#40, [0x0200000000#40]), (0x0253350800, []), (0x0100000000, []), (0x01000000FE, [])],
      let s := offering (p.1 :: p.2)
      s.host.turns = [] ∧ s.host.rst = false ∧ s.host.outReady = true ∧ s.block.busy = false ∧
        s.host.requests = p.1 :: p.2 := by decide

/-- Registers and draws left by an ALERT after one more RESET against those of reset. -/
theorem witness_NoStatePersistsAcrossOperations :
    let s := offering [0x0253350800]
    let s' := (s.withBlock { busy := false, rq := 0x0253350800, idx := 15, sum := 0x9F, fcode := 0 }).draw 1
    s.block.busy = false ∧ s'.block.busy = false ∧ s'.host = s.host ∧ s'.drawn ≠ s.drawn ∧ s'.block ≠ s.block := by decide

/-- OverRunStaysOver: over with a RESET, a store and a withdrawal pending; not over with a request to come. -/
theorem witness_OverRunStaysOver :
    (∀ ts ∈ [[], [.block, .host (.store 3 1), .host (.offer [])], [.host (.reset true), .block]],
      let s := State.reset.withTurns ts
      runOver s = true ∧ (nextOf (step s)).isSome) ∧
    runOver (State.reset.withTurns [.block, .host (.offer [0x0253350800])]) = false := by decide

end Sys2Proof.Tests
end

section
/-! PROOFS. What a trace shows of the events of one step. -/

namespace Sys2Proof.Machine

open Sys2Proof

@[simp] theorem beatsOf_nil : beatsOf [] = [] := rfl
@[simp] theorem beatsOf_beat (b : Beat) : beatsOf [.beat b] = [b] := rfl
@[simp] theorem readsOf_nil : readsOf [] = [] := rfl
@[simp] theorem readsOf_beat (b : Beat) : readsOf [.beat b] = [] := rfl

@[simp] theorem beatsOf_append (es fs : List Event) : beatsOf (es ++ fs) = beatsOf es ++ beatsOf fs :=
  List.filterMap_append

@[simp] theorem readsOf_append (es fs : List Event) : readsOf (es ++ fs) = readsOf es ++ readsOf fs :=
  List.filterMap_append

/-- The payload read of a slot is no beat. -/
@[simp] theorem beatsOf_slotReads (s : State) (slot : Slot) : beatsOf (slotReads s slot) = [] := by
  cases slot <;> rfl

/-- A slot reads exactly at the address it drives, and what it reads is the byte it yields (20_memory.md R31). -/
@[simp] theorem readsOf_slotReads (s : State) (slot : Slot) :
    readsOf (slotReads s slot) = (slot.address.map fun a => (slotByte s slot, a.toNat)).toList := by
  cases slot <;> rfl

/-- The events of an EMIT-BYTE step: its payload read, if it makes one, then its beat. -/
theorem emitByte_trace (o : Operands) (s : State) :
    (emitByte o s).trace = s.trace ++ (slotReads s (currentSlot o s) ++
      [.beat { fault := false, data := slotByte s (currentSlot o s), last := isLast o s.block.idx.toNat }]) := rfl

end Sys2Proof.Machine
end

section
/-! PROOFS. The status outputs, in every phase of the block. -/

namespace Sys2Proof.Machine

open Sys2Proof

/-- The three status outputs are functions of `busy` and `fcode`, whatever the pins are (10_state.md R22). -/
theorem ports_status (s : State) :
    (ports s).reqReady = !s.block.busy ∧ (ports s).outValid = s.block.busy ∧
      (ports s).outFault = (s.block.busy && decide (s.block.fcode ≠ 0)) := by
  cases hb : s.block.busy with
  | false => simp [ports_idle hb]
  | true =>
    by_cases hf : s.block.fcode = 0
    · simp [ports, hb, hf]
    · simpa [ports_fault hb hf] using hf

@[simp] theorem ports_reqReady (s : State) : (ports s).reqReady = !s.block.busy := (ports_status s).1
@[simp] theorem ports_outValid (s : State) : (ports s).outValid = s.block.busy := (ports_status s).2.1
@[simp] theorem ports_outFault (s : State) :
    (ports s).outFault = (s.block.busy && decide (s.block.fcode ≠ 0)) := (ports_status s).2.2

@[simp] theorem inputPorts_reqValid (s : State) : (inputPorts s).reqValid = !s.host.requests.isEmpty := rfl
@[simp] theorem inputPorts_req (s : State) : (inputPorts s).req = s.host.requests.head? := rfl
@[simp] theorem inputPorts_outReady (s : State) : (inputPorts s).outReady = s.host.outReady := rfl

/-- Taking the turn off the schedule moves no byte: the slot on offer yields what it did. -/
@[simp] theorem slotByte_turnTaken (s : State) (slot : Slot) : slotByte (turnTaken s) slot = slotByte s slot := by
  cases slot <;> rfl

/-- The slot on the output ports is the one EMIT-BYTE sends with the operands of the latched word. -/
theorem currentSlot_turnTaken (s : State) : currentSlot (operandsOf s.block.rq) (turnTaken s) = offeredSlot s := rfl

end Sys2Proof.Machine
end

section
/-! PROOFS. Which step the block takes: the guards of `BlockStep` decide it. Then what one instruction keeps. -/

namespace Sys2Proof.Machine

open Sys2Proof

/-- A busy block whose beat is taken continues the latched operation, `rst` being low (42_sequencer.md R133, R134). -/
theorem blockTurn_of_taken {s : State} (hrst : s.host.rst = false) (hbusy : s.block.busy = true)
    (hready : s.host.outReady = true) : blockTurn s = continueInFlight s := by
  simp [blockTurn, hrst, hbusy, hready]

/-- An idle block takes the word on offer, `rst` being low (42_sequencer.md R131). -/
theorem blockTurn_of_offered {s : State} {r : Word} {rest : List Word} (hrst : s.host.rst = false)
    (hidle : s.block.busy = false) (hreq : s.host.requests = r :: rest) : blockTurn s = acceptOffer r rest s := by
  simp [blockTurn, hrst, hidle, hreq]

theorem continueInFlight_of_decodeWord {s : State} {i : Instr} (h : decodeWord s.block.rq = .ok i) :
    continueInFlight s = exec i s := by
  simp [continueInFlight, h]

/-- What is in flight runs with the effective operands of the latched word, an instruction or not. -/
theorem continueInFlight_eq (s : State) :
    continueInFlight s = .next (runOperation s.block.rq (operandsOf s.block.rq) s) := by
  cases hd : decodeWord s.block.rq with
  | ok i =>
    rw [continueInFlight_of_decodeWord hd, exec_eq, requestWord_of_decodeWord hd, instrOperands_of_decodeWord hd]
  | error e => simp [continueInFlight, runIllegal, operandsOf, hd]

/-- Whatever word an idle block takes, an instruction or not, the step is ACCEPT of that word. -/
theorem acceptOffer_of_idle {s : State} (r : Word) (rest : List Word) (hidle : s.block.busy = false) :
    acceptOffer r rest s = .next (accept r (s.withRequests rest)) := by
  cases hd : decode (r :: rest) with
  | ok i => simp [acceptOffer, hd, exec_eq, requestWord_of_decode hd, runOperation_idle, hidle]
  | error e => simp [acceptOffer, hd, runIllegal, runOperation_idle, hidle]

/-- A step whose guard holds is the one the block takes: the converse of `blockTurn_cases`. -/
theorem BlockStep.blockTurn_eq {s t : State} (h : BlockStep s t) : blockTurn s = .next t := by
  cases h with
  | reset hr => simp [blockTurn, hr]
  | stall hr hb ho => simp [blockTurn, hr, hb, ho]
  | idle hr hb hq => simp [blockTurn, hr, hb, hq]
  | accept hr hb r rest hq => rw [blockTurn_of_offered hr hb hq, acceptOffer_of_idle r rest hb]
  | emit hr hb ho hf => rw [blockTurn_of_taken hr hb ho, continueInFlight_eq, runOperation_byte hb hf]
  | fault hr hb ho hf => rw [blockTurn_of_taken hr hb ho, continueInFlight_eq, runOperation_fault hb hf]

theorem BlockStep.step_eq {s t : State} (hturn : isBlockTurn s = true) (h : BlockStep (turnTaken s) t) :
    step s = .next t :=
  (step_of_isBlockTurn hturn).trans h.blockTurn_eq

/-- In the host's turn a step is the host's move. -/
theorem step_of_hostTurn {s : State} {m : HostMove} {ts : List Turn} (h : s.host.turns = .host m :: ts) :
    step s = .next (hostMove m (turnTaken s)) := by
  rcases step_cases s with ⟨m', ts', hts, hstep, _⟩ | ⟨hturn, _⟩
  · rw [h] at hts
    obtain ⟨rfl, rfl⟩ : m = m' ∧ ts = ts' := by simpa using hts
    exact hstep
  · simp [isBlockTurn, h] at hturn

/-- Settles O8: the block's turn continues the operation in flight, and that runs the decoded instruction. -/
theorem stepRunsInFlightInstruction : Obligations.StepRunsInFlightInstruction := by
  intro s i hturn hrst hbusy hready hi
  calc step s = blockTurn (turnTaken s) := step_of_isBlockTurn hturn
    _ = continueInFlight (turnTaken s) := blockTurn_of_taken hrst hbusy hready
    _ = exec i (turnTaken s) := continueInFlight_of_decodeWord hi

/-- Settles O28: the status outputs of an idle block, at `State.reset`. -/
theorem resetStateIsIdle : Obligations.ResetStateIsIdle := by
  have hidle : State.reset.block.busy = false := rfl
  exact ⟨hidle, by simp [hidle], by simp [hidle], rfl, rfl⟩

/-- After index `4 + L` EMIT-BYTE keeps the checksum (10_state.md R14). -/
theorem emitByte_sum_of_lt {o : Operands} {s : State} (h : o.len + 4 < s.block.idx.toNat) :
    (emitByte o s).block.sum = s.block.sum :=
  if_neg (by omega)

/-- Settles O22: in flight an instruction sends a packet beat or the fault beat, by `fcode`. -/
theorem beatsKeepTheLatchedRequest : Obligations.BeatsKeepTheLatchedRequest := by
  intro i s t hbusy hexec
  rw [exec_eq] at hexec
  obtain rfl := Host.Outcome.next.inj hexec
  by_cases hf : s.block.fcode = 0
  · rw [runOperation_byte hbusy hf]
    refine ⟨rfl, rfl, fun h => absurd hf h, fun _ hidx => nextIdx_of_ne hidx, fun _ hi hlen => ?_⟩
    rw [instrOperands_of_decodeWord hi]
    exact emitByte_sum_of_lt hlen
  · rw [runOperation_fault hbusy hf]
    exact ⟨rfl, rfl, fun _ => ⟨rfl, rfl⟩, fun h => absurd h hf, fun h => absurd h hf⟩

end Sys2Proof.Machine
end

section
/-! PROOFS. The ports against the step (10_state.md R22). -/

namespace Sys2Proof.Machine

open Sys2Proof

/-- Settles O20: each case of `BlockStep` completes the handshake of its clause, or neither. -/
theorem handshakesDecideTheStep : Obligations.HandshakesDecideTheStep := by
  intro s hturn hrst
  obtain ⟨t, ht, hs⟩ := blockTurn_cases (turnTaken s)
  have hstep : step s = .next t := (step_of_isBlockTurn hturn).trans ht
  simp only [ports_reqReady, ports_outValid, inputPorts_reqValid, inputPorts_req, inputPorts_outReady]
  cases hs with
  | reset h => simp [hrst] at h
  | stall _ hbusy hready =>
    exact ⟨_, [], hstep, by simp, by simp_all⟩
  | idle _ hbusy hreq =>
    exact ⟨_, [], hstep, by simp, by simp_all⟩
  | accept _ hbusy r rest hreq =>
    exact ⟨_, [.accept r], hstep, by simp, by simp_all⟩
  | emit _ hbusy hready hf =>
    exact ⟨_, _, hstep, emitByte_trace _ _, by simp_all⟩
  | fault _ hbusy hready hf =>
    exact ⟨_, _, hstep, emitFault_trace _, by simp_all⟩

/-- A step that reads `d` at the address driven, if one is, reads exactly when one is driven, and there. -/
theorem reads_iff_driven (d : Byte) (a : Option (BitVec 8)) :
    (a.isSome = true ↔ (a.map fun a => (d, a.toNat)).toList ≠ []) ∧
      ∀ b, a = some b ↔ (a.map fun a => (d, a.toNat)).toList = [(d, b.toNat)] := by
  cases a <;> simp [BitVec.toNat_inj]

/-- Settles O19: the beat on the ports is that of the EMIT-BYTE or EMIT-FAULT step at hand, by `fcode`. -/
theorem portsShowTheNextBeat : Obligations.PortsShowTheNextBeat := by
  intro s
  refine ⟨by simp, by simp, by simp, fun hturn hrst hbusy hready => ?_⟩
  by_cases hf : s.block.fcode = 0
  · have hstep : step s = .next (emitByte (operandsOf s.block.rq) (turnTaken s)) :=
      BlockStep.step_eq hturn (.emit hrst hbusy hready hf)
    rw [ports_byte hbusy hf hrst]
    refine ⟨_, _, _, _, rfl, rfl, hstep, emitByte_trace _ _, ?_⟩
    simpa [currentSlot_turnTaken] using reads_iff_driven (slotByte s (offeredSlot s)) (offeredSlot s).address
  · have hstep : step s = .next (emitFault (turnTaken s)) :=
      BlockStep.step_eq hturn (.fault hrst hbusy hready hf)
    rw [ports_fault hbusy hf]
    exact ⟨_, _, _, _, rfl, rfl, hstep, emitFault_trace _, by simp⟩

end Sys2Proof.Machine
end

section
/-! PROOFS. An accepted operation in flight uses no value the spec leaves open (42_sequencer.md R137). -/

namespace Sys2Proof.Machine

open Sys2Proof

/-- A selection in range has a payload of eight bytes (41_alert.md R112). -/
theorem alertPayload_of_inRange {sel : Selection} (hband : sel.band ≤ 4#4) (hstrength : sel.strength ≤ 8#4) :
    ∃ p, alertPayload sel = some p ∧ p.length = 8 := by
  obtain ⟨image1, himage⟩ : ∃ b, bandImage1 sel.band sel.dir = some b := by
    by_cases h : sel.band = 0#4 <;> simp [bandImage1, bandBit, h, hband]
  have hbar : bar sel.strength = some (BitVec.ofNat 8 ((1 <<< sel.strength.toNat) - 1)) := if_pos hstrength
  simp [alertPayload, himage, hbar]

/-- Effective operands that say what every byte of the packet is. -/
structure Operands.Stated (o : Operands) : Prop where
  len : o.len ≤ 254
  payload : ∀ i < o.len, payloadSlot o.payload i ≠ .unstated

/-- A word that passes `Check` has its column in 42_sequencer.md R135. -/
theorem operandsOf_stated {w : Word} (h : check w = 0) : (operandsOf w).Stated := by
  rcases decodeWord_of_check h with ⟨dest, src, msg, plen, hw, hlen⟩ | ⟨sel, hw, hband, hstrength⟩
  · rw [operandsOf_frame hw]
    refine ⟨hlen, fun i hi => ?_⟩
    have hi254 : i < 254 := hi.trans_le hlen
    simp [frameOperands, payloadSlot_port hi254]
  · obtain ⟨p, hp, hlen⟩ := alertPayload_of_inRange hband hstrength
    rw [operandsOf_alert hw]
    refine ⟨by simp [alertOperands], fun i hi => ?_⟩
    have hip : i < p.length := hlen ▸ hi
    simp [alertOperands, hp, payloadSlot_fixed (List.getElem?_eq_getElem hip)]

/-- Stated operands give the byte at each of the `L + 7` indices of the packet (42_sequencer.md R134). -/
theorem packetSlot_ne_unstated {o : Operands} (ho : o.Stated) (sum : Byte) {k : Nat} (hk : k ≤ o.len + 6) :
    packetSlot o sum k ≠ .unstated := by
  obtain h | ⟨h5, h⟩ | rfl | rfl : k < 5 ∨ (5 ≤ k ∧ k ≤ 4 + o.len) ∨ k = 5 + o.len ∨ k = 6 + o.len := by omega
  · simp [packetSlot_header ho.len sum h]
  · rw [packetSlot_payload o sum h5 h]
    exact ho.payload _ (by omega)
  · simp [packetSlot_sum]
  · simp [packetSlot_eof]

/-- The registers of an operation in flight since its ACCEPT: the code is that of `Check`, and `idx` is an index of its
packet (42_sequencer.md R137). -/
structure Block.Accepted (b : Block) : Prop where
  fcode : b.fcode = check b.rq
  idx : b.fcode = 0 → b.idx.toNat ≤ (operandsOf b.rq).len + 6

/-- ACCEPT starts such an operation. -/
theorem accept_accepted (r : Word) (s : State) : (accept r s).block.Accepted :=
  ⟨rfl, fun _ => Nat.zero_le _⟩

section InFlight

variable {s : State} (h : s.block.Accepted) (hf : s.block.fcode = 0)

include h hf

theorem Block.Accepted.stated : (operandsOf s.block.rq).Stated :=
  operandsOf_stated (h.fcode.symm.trans hf)

/-- The byte an accepted operation owes next is given by the spec. -/
theorem Block.Accepted.currentSlot_ne : currentSlot (operandsOf s.block.rq) s ≠ .unstated :=
  packetSlot_ne_unstated (h.stated hf) _ (h.idx hf)

/-- An accepted operation is never at index 511. -/
theorem Block.Accepted.idx_lt : s.block.idx.toNat < 511 := by
  have hidx := h.idx hf
  have hlen := (h.stated hf).len
  omega

theorem Block.Accepted.nextIdx_eq : nextIdx s = s.block.idx + 1 :=
  nextIdx_of_ne fun e => absurd (h.idx_lt hf) (by simp [e])

/-- A packet beat that is not the last leaves the operation in flight as accepted. -/
theorem Block.Accepted.emitByte_accepted (hbusy : (emitByte (operandsOf s.block.rq) s).block.busy = true) :
    (emitByte (operandsOf s.block.rq) s).block.Accepted := by
  have hnotLast : s.block.idx.toNat ≠ (operandsOf s.block.rq).len + 6 := fun e => by
    simp [emitByte_eq, (isLast_iff _ _).2 e] at hbusy
  have hidx := h.idx hf
  have hlt := h.idx_lt hf
  refine ⟨h.fcode, fun _ => ?_⟩
  rw [emitByte_idx, h.nextIdx_eq hf, emitByte_rq,
    BitVec.toNat_add_of_lt (show s.block.idx.toNat + 1 < 512 by omega)]
  change s.block.idx.toNat + 1 ≤ _
  omega

end InFlight

end Sys2Proof.Machine
end

section
/-! PROOFS. What an earlier operation left never shows: a simulation between two runs under one host. -/

namespace Sys2Proof.Machine

open Sys2Proof

/-- Two states no later event tells apart: the same host side, and idle both, or with the same accepted operation in
flight. Of an idle block nothing but `busy` counts (10_state.md R19). -/
structure Indistinguishable (s s' : State) : Prop where
  host : s'.host = s.host
  busy : s'.block.busy = s.block.busy
  inFlight : s.block.busy = true → s'.block = s.block ∧ s.block.Accepted

theorem Indistinguishable.of_idle {s s' : State} (hb : s.block.busy = false) (hb' : s'.block.busy = false)
    (hh : s'.host = s.host) : Indistinguishable s s' :=
  ⟨hh, hb'.trans hb.symm, fun h => by simp [hb] at h⟩

/-- A turn taken or a move of the host, the same on both sides, keeps two states indistinguishable. -/
theorem Indistinguishable.of_blocks {s s' t t' : State} (h : Indistinguishable s s') (hb : t.block = s.block)
    (hb' : t'.block = s'.block) (hh : t'.host = t.host) : Indistinguishable t t' :=
  ⟨hh, by rw [hb, hb', h.busy], by rw [hb, hb']; exact h.inFlight⟩

theorem turnTaken_host_congr {s s' : State} (h : s'.host = s.host) : (turnTaken s').host = (turnTaken s).host := by
  simp only [turnTaken, State.withTurns, h]

theorem withRequests_host_congr {s s' : State} (h : s'.host = s.host) (rs : List Word) :
    (s'.withRequests rs).host = (s.withRequests rs).host := by
  simp only [State.withRequests, h]

theorem hostMove_host_congr {s s' : State} (h : s'.host = s.host) (m : HostMove) :
    (hostMove m s').host = (hostMove m s).host := by
  cases m <;> simp only [hostMove, State.withRequests, State.withHost, h]

/-- A slot the spec gives yields the same byte and read under the same host, however many free values were drawn. -/
theorem slot_congr {s s' : State} (hh : s'.host = s.host) {slot : Slot} (hslot : slot ≠ .unstated) :
    slotByte s' slot = slotByte s slot ∧ slotReads s' slot = slotReads s slot := by
  cases slot with
  | value b => exact ⟨rfl, rfl⟩
  | read a => simp [slotByte, slotReads, hh]
  | unstated => exact absurd rfl hslot

/-- EMIT-BYTE from two indistinguishable states: the same events, and indistinguishable states again. -/
theorem Indistinguishable.emitByte_simulates {s s' : State} (h : Indistinguishable s s') (hb : s.block.busy = true)
    (hf : s.block.fcode = 0) :
    ∃ es, (emitByte (operandsOf s.block.rq) s).trace = s.trace ++ es ∧
      (emitByte (operandsOf s.block.rq) s').trace = s'.trace ++ es ∧
      Indistinguishable (emitByte (operandsOf s.block.rq) s) (emitByte (operandsOf s.block.rq) s') := by
  obtain ⟨hblock, hacc⟩ := h.inFlight hb
  have hcur : currentSlot (operandsOf s.block.rq) s' = currentSlot (operandsOf s.block.rq) s := by
    simp only [currentSlot, hblock]
  obtain ⟨hbyte, hreads⟩ := slot_congr h.host (hacc.currentSlot_ne hf)
  have hnext : nextIdx s' = nextIdx s := by
    have hacc' : s'.block.Accepted := hblock ▸ hacc
    rw [hacc.nextIdx_eq hf, hacc'.nextIdx_eq (by rw [hblock, hf]), hblock]
  have hblock' : (emitByte (operandsOf s.block.rq) s').block =
      (emitByte (operandsOf s.block.rq) s).block := by
    simp only [emitByte_eq, hcur, hbyte, hnext, hblock]
  refine ⟨_, emitByte_trace _ _, ?_, h.host, by rw [hblock'], fun hbusy => ⟨hblock', hacc.emitByte_accepted hf hbusy⟩⟩
  rw [emitByte_trace, hcur, hbyte, hreads, hblock]

/-- Every step of the block is matched from an indistinguishable state, by a step of the same kind. -/
theorem BlockStep.simulates {s s' t : State} (h : Indistinguishable s s') (hs : BlockStep s t) :
    ∃ t' es, BlockStep s' t' ∧ t.trace = s.trace ++ es ∧ t'.trace = s'.trace ++ es ∧ Indistinguishable t t' := by
  cases hs with
  | reset hr =>
    exact ⟨_, [.reset], .reset (by rw [h.host, hr]), rfl, rfl, .of_idle rfl rfl h.host⟩
  | stall hr hb ho =>
    exact ⟨s', [], .stall (by rw [h.host, hr]) (by rw [h.busy, hb]) (by rw [h.host, ho]), by simp, by simp, h⟩
  | idle hr hb hq =>
    exact ⟨s', [], .idle (by rw [h.host, hr]) (by rw [h.busy, hb]) (by rw [h.host, hq]), by simp, by simp, h⟩
  | accept hr hb r rest hq =>
    exact ⟨_, [.accept r], .accept (by rw [h.host, hr]) (by rw [h.busy, hb]) r rest (by rw [h.host, hq]), rfl, rfl,
      withRequests_host_congr h.host rest, rfl, fun _ => ⟨rfl, accept_accepted r _⟩⟩
  | emit hr hb ho hf =>
    obtain ⟨hblock, _⟩ := h.inFlight hb
    obtain ⟨es, htrace, htrace', hind⟩ := h.emitByte_simulates hb hf
    have hstep' := BlockStep.emit (s := s') (by rw [h.host, hr]) (by rw [h.busy, hb]) (by rw [h.host, ho])
      (by rw [hblock, hf])
    rw [hblock] at hstep'
    exact ⟨_, es, hstep', htrace, htrace', hind⟩
  | fault hr hb ho hf =>
    obtain ⟨hblock, _⟩ := h.inFlight hb
    exact ⟨_, _, .fault (by rw [h.host, hr]) (by rw [h.busy, hb]) (by rw [h.host, ho]) (by rwa [hblock]),
      emitFault_trace s, by rw [emitFault_trace, hblock], .of_idle rfl rfl h.host⟩

/-- One step from two indistinguishable states, whoever moves. -/
theorem step_simulates {s s' : State} (h : Indistinguishable s s') :
    ∃ t t' es, step s = .next t ∧ step s' = .next t' ∧ t.trace = s.trace ++ es ∧ t'.trace = s'.trace ++ es ∧
      Indistinguishable t t' := by
  have htaken : (turnTaken s').host = (turnTaken s).host := turnTaken_host_congr h.host
  rcases step_cases s with ⟨m, ts, hts, hstep, _⟩ | ⟨hturn, t, hstep, hs⟩
  · refine ⟨_, _, [], hstep, step_of_hostTurn (by rw [h.host, hts]), by simp, by simp, ?_⟩
    exact h.of_blocks (by simp) (by simp) (hostMove_host_congr htaken m)
  · have hturn' : isBlockTurn s' = true := by rw [isBlockTurn, h.host]; exact hturn
    have htakenInd : Indistinguishable (turnTaken s) (turnTaken s') := h.of_blocks rfl rfl htaken
    obtain ⟨t', es, hs', htrace, htrace', hind⟩ := hs.simulates htakenInd
    exact ⟨t, t', es, hstep, BlockStep.step_eq hturn' hs', htrace, htrace', hind⟩

/-- Runs of any length from two indistinguishable states show the same events. -/
theorem run_simulates (k : Nat) {s s' : State} (h : Indistinguishable s s') :
    ∃ t t' es, Host.Core.run Sys2Proof.core k s = .next t ∧ Host.Core.run Sys2Proof.core k s' = .next t' ∧
      t.trace = s.trace ++ es ∧ t'.trace = s'.trace ++ es ∧ Indistinguishable t t' := by
  induction k generalizing s s' with
  | zero => exact ⟨s, s', [], rfl, rfl, by simp, by simp, h⟩
  | succ k ih =>
    obtain ⟨u, u', es, hstep, hstep', htrace, htrace', hind⟩ := step_simulates h
    obtain ⟨t, t', fs, hrun, hrun', hfs, hfs', hend⟩ := ih hind
    refine ⟨t, t', es ++ fs, (run_succ k hstep).trans hrun, (run_succ k hstep').trans hrun', ?_, ?_, hend⟩
    · rw [hfs, htrace, List.append_assoc]
    · rw [hfs', htrace', List.append_assoc]

/-- Settles O50: two idle blocks under one host are indistinguishable, and stay so along every run. -/
theorem noStatePersistsAcrossOperations : Obligations.NoStatePersistsAcrossOperations := by
  intro k s s' hb hb' hh
  obtain ⟨t, t', es, hrun, hrun', htrace, htrace', hind⟩ := run_simulates k (.of_idle hb hb' hh)
  exact ⟨t, t', es, hrun, hrun', htrace, htrace', hind.busy, hind.host⟩

end Sys2Proof.Machine
end

section
/-! PROOFS. The payload reads an address makes, against those a trace shows (20_memory.md R31). -/

namespace Sys2Proof.Machine

open Sys2Proof

/-- What `readsOf` shows of a step that drives this address, if any, on a payload space `m`. -/
def readsAt (m : Memory) (addr : Option (BitVec 8)) : List (Byte × Nat) :=
  (addr.map fun a => (Memory.read m a.toNat, a.toNat)).toList

@[simp] theorem readsAt_none (m : Memory) : readsAt m none = [] := rfl
@[simp] theorem readsAt_some (m : Memory) (a : BitVec 8) :
    readsAt m (some a) = [(Memory.read m a.toNat, a.toNat)] := rfl

theorem readsAt_eq_nil_iff {m : Memory} {addr : Option (BitVec 8)} : readsAt m addr = [] ↔ addr = none := by
  cases addr <;> simp

/-- One address makes one read at most. -/
theorem length_readsAt_le (m : Memory) (addr : Option (BitVec 8)) : (readsAt m addr).length ≤ 1 := by
  cases addr <;> simp

theorem mem_readsAt {m : Memory} {addr : Option (BitVec 8)} {a : BitVec 8} {v : Byte} :
    (v, a.toNat) ∈ readsAt m addr ↔ addr = some a ∧ v = Memory.read m a.toNat := by
  cases addr with
  | none => simp
  | some b =>
    simp only [readsAt_some, List.mem_singleton, Prod.mk.injEq, Option.some.injEq, BitVec.toNat_inj]
    constructor <;> (rintro ⟨rfl, rfl⟩; exact ⟨rfl, rfl⟩)

theorem mem_readsOf_of_mem {es : List Event} {a : BitVec 8} {v : Byte} (h : Event.read a v ∈ es) :
    (v, a.toNat) ∈ readsOf es :=
  List.mem_filterMap.2 ⟨_, h, rfl⟩

/-- The reads of a slot are those of the address it drives. -/
theorem readsOf_slotReads_eq_readsAt (s : State) (slot : Slot) :
    readsOf (slotReads s slot) = readsAt s.host.payload slot.address := by
  cases slot <;> rfl

theorem Slot.address_eq_some {slot : Slot} {a : BitVec 8} : slot.address = some a ↔ slot = .read a := by
  cases slot <;> simp [Slot.address]

/-- The events of the next step of an operation, whose only payload read is that of a packet beat's slot. -/
theorem runOperation_events (r : Word) (o : Operands) (s : State) :
    ∃ es, (runOperation r o s).trace = s.trace ++ es ∧
      (readsOf es = [] ∨
        s.block.busy = true ∧ s.block.fcode = 0 ∧ readsOf es = readsAt s.host.payload (currentSlot o s).address) := by
  rcases runOperation_cases r o s with ⟨_, h⟩ | ⟨hbusy, hf, h⟩ | ⟨_, _, h⟩ <;> rw [h]
  · exact ⟨_, accept_trace r s, .inl rfl⟩
  · refine ⟨_, emitByte_trace o s, .inr ⟨hbusy, hf, ?_⟩⟩
    rw [readsOf_append, readsOf_beat, List.append_nil, readsOf_slotReads_eq_readsAt]
  · exact ⟨_, emitFault_trace s, .inl rfl⟩

/-- Only a FRAME takes its payload from the port, `plen` bytes of it (42_sequencer.md R135). -/
theorem instrOperands_payload_port {i : Instr} (h : (instrOperands i).payload = .port) :
    ∃ dest src msg plen, i = .frame dest src msg plen ∧ (instrOperands i).len = plen.toNat := by
  cases i with
  | frame dest src msg plen => exact ⟨dest, src, msg, plen, rfl, rfl⟩
  | alert sel =>
    simp only [instrOperands, alertOperands] at h
    split at h <;> cases h
  | pktHdr => cases h
  | pktAlert => cases h

/-- Settles O23: a read is that of the slot at `idx`, and a slot that reads is a payload byte of the port. -/
theorem onlyFrameReadsThePayload : Obligations.OnlyFrameReadsThePayload := by
  intro i s t es hexec htrace
  rw [exec_eq] at hexec
  obtain rfl := Host.Outcome.next.inj hexec
  obtain ⟨es', htrace', hreads⟩ := runOperation_events (requestWord i) (instrOperands i) s
  obtain rfl : es = es' := List.append_cancel_left (htrace.symm.trans htrace')
  rcases hreads with hnone | ⟨hbusy, hf, hreads⟩
  · refine ⟨by simp [hnone], fun a v hmem => ?_⟩
    simpa [hnone] using mem_readsOf_of_mem hmem
  · refine ⟨hreads ▸ length_readsAt_le _ _, fun a v hmem => ?_⟩
    obtain ⟨haddr, hv⟩ := mem_readsAt.1 (hreads ▸ mem_readsOf_of_mem hmem)
    obtain ⟨h5, hlen, ha, hlt, hport⟩ := packetSlot_eq_read (Slot.address_eq_some.1 haddr)
    obtain ⟨dest, src, msg, plen, hi, hplen⟩ := instrOperands_payload_port hport
    exact ⟨hbusy, hf, by omega, by omega, hv, dest, src, msg, plen, hi, by omega⟩

/-- Settles O21: no phase of an operation touches the host's side, and each appends its events. -/
theorem instructionsLeaveTheHostAlone : Obligations.InstructionsLeaveTheHostAlone := by
  intro i s t hexec
  rw [exec_eq] at hexec
  obtain rfl := Host.Outcome.next.inj hexec
  have hhost := runOperation_host (requestWord i) (instrOperands i) s
  obtain ⟨es, htrace, _⟩ := runOperation_events (requestWord i) (instrOperands i) s
  exact ⟨hhost, fun a => by rw [hhost], es, htrace⟩

end Sys2Proof.Machine
end

section
/-! PROOFS. The payload port against the step (20_memory.md R31, 92_eei_decisions.md D24). -/

namespace Sys2Proof.Machine

open Sys2Proof

/-- `pl_data` is the byte the payload space holds at the address driven. -/
@[simp] theorem inputPorts_plData (s : State) :
    (inputPorts s).plData = (ports s).plAddr.map fun a => Memory.read s.host.payload a.toNat := rfl

/-- While `rst` is asserted the payload port is idle, whatever byte is on offer (log 13). -/
theorem ports_payload_of_rst {s : State} (h : s.host.rst = true) :
    (ports s).plRe = some false ∧ (ports s).plAddr = none := by
  cases hb : s.block.busy with
  | false => simp [ports_idle hb, h]
  | true =>
    by_cases hf : s.block.fcode = 0
    · simp [ports, hb, hf, drivenAddress_of_rst h]
    · simp [ports_fault hb hf]

/-- Taking the turn off the schedule shows on no output. -/
@[simp] theorem ports_turnTaken (s : State) : ports (turnTaken s) = ports s := by
  have hslot : offeredSlot (turnTaken s) = offeredSlot s := rfl
  simp [ports, drivenAddress, hslot]

/-- A step that shows an event reads what the payload port asks for: nothing, or the byte at the address driven. -/
theorem BlockStep.reads_eq_readsAt {s t : State} {es : List Event} (h : BlockStep s t)
    (htrace : t.trace = s.trace ++ es) (hes : es ≠ []) :
    (ports s).plRe = some (ports s).plAddr.isSome ∧ readsOf es = readsAt s.host.payload (ports s).plAddr := by
  cases h with
  | reset hr =>
    obtain rfl : es = [.reset] := List.append_cancel_left (htrace.symm.trans (resetStep_trace _))
    obtain ⟨hre, haddr⟩ := ports_payload_of_rst hr
    rw [hre, haddr]
    exact ⟨rfl, rfl⟩
  | stall => exact absurd (List.self_eq_append_right.1 htrace) hes
  | idle => exact absurd (List.self_eq_append_right.1 htrace) hes
  | accept _ hb r rest hq =>
    obtain rfl : es = [.accept r] := List.append_cancel_left (htrace.symm.trans (accept_trace _ _))
    rw [ports_idle hb, hq, List.isEmpty_cons, Bool.not_false, Bool.or_true, if_pos rfl]
    exact ⟨rfl, rfl⟩
  | emit hr hb _ hf =>
    obtain rfl := List.append_cancel_left (htrace.symm.trans (emitByte_trace _ _))
    rw [ports_byte hb hf hr]
    refine ⟨rfl, ?_⟩
    rw [readsOf_append, readsOf_beat, List.append_nil, readsOf_slotReads_eq_readsAt]
    rfl
  | fault _ hb _ hf =>
    obtain rfl := List.append_cancel_left (htrace.symm.trans (emitFault_trace _))
    rw [ports_fault hb hf]
    exact ⟨rfl, rfl⟩

/-- Settles O51: the reads of the step are those of the address on the port, and `pl_re` says whether there is one. -/
theorem payloadPortMarksTheReads : Obligations.PayloadPortMarksTheReads := by
  intro s t es hturn hstep htrace hes
  obtain ⟨t', ht', hs⟩ := blockTurn_cases (turnTaken s)
  obtain rfl : t' = t := Host.Outcome.next.inj ((hs.step_eq hturn).symm.trans hstep)
  obtain ⟨hre, hreads⟩ := hs.reads_eq_readsAt htrace hes
  rw [ports_turnTaken] at hre hreads
  rw [turnTaken_payload] at hreads
  refine ⟨?_, fun hnone => ?_, fun a v hmem => ?_⟩
  · rw [hre, hreads]
    cases (ports s).plAddr <;> simp
  · have haddr : (ports s).plAddr = none := readsAt_eq_nil_iff.1 (hreads.symm.trans hnone)
    simp [haddr]
  · obtain ⟨haddr, hv⟩ := mem_readsAt.1 (hreads ▸ mem_readsOf_of_mem hmem)
    simp [haddr, hv]

end Sys2Proof.Machine
end

section
/-! PROOFS. The payload space keeps its canonical form (20_memory.md R30; log 6). -/

namespace Sys2Proof.Machine

open Sys2Proof

/-- The block never writes the payload space. -/
theorem BlockStep.payload_eq {s t : State} (h : BlockStep s t) : t.host.payload = s.host.payload := by
  cases h <;> rfl

/-- Of the host's moves only a store writes the payload space, at an eight-bit address. -/
theorem hostMove_wf (m : HostMove) {s : State} (h : Memory.wf s.host.payload) :
    Memory.wf (hostMove m s).host.payload := by
  cases m with
  | offer | ready | reset => exact h
  | store a v => exact Memory.wf_write h a.isLt

/-- Settles O43: a step is a move of the host or leaves the payload space alone. -/
theorem stepKeepsMemoryCanonical : Obligations.StepKeepsMemoryCanonical := by
  intro s t hwf hstep
  rcases step_cases s with ⟨m, _, _, hmove, _⟩ | ⟨_, t', ht', hs⟩
  · obtain rfl := Host.Outcome.next.inj (hmove.symm.trans hstep)
    exact hostMove_wf m hwf
  · obtain rfl := Host.Outcome.next.inj (ht'.symm.trans hstep)
    rw [hs.payload_eq]
    exact hwf

/-- Settles O44: at reset no payload address is listed. -/
theorem resetMemoryCanonical : Obligations.ResetMemoryCanonical := Memory.wf_reset

end Sys2Proof.Machine
end

section
/-! PROOFS. A request word as a number: the field positions of 30_encoding.md R51, R52, R59. -/

namespace Sys2Proof

theorem toNat_append_eq_add {m n : Nat} (x : BitVec m) (y : BitVec n) :
    (x ++ y).toNat = x.toNat * 2 ^ n + y.toNat := by
  rw [BitVec.toNat_append, ← Nat.shiftLeft_add_eq_or_of_lt y.isLt, Nat.shiftLeft_eq]

theorem toNat_bits (lo n : Nat) (w : Word) : (bits lo n w).toNat = w.toNat / 2 ^ lo % 2 ^ n := by
  rw [bits, BitVec.extractLsb'_toNat, Nat.shiftRight_eq_div_pow]

theorem bits_eq_iff (lo n : Nat) (w : Word) (v : BitVec n) :
    bits lo n w = v ↔ w.toNat / 2 ^ lo % 2 ^ n = v.toNat := by
  rw [← BitVec.toNat_inj, toNat_bits]

theorem requestWord_frame_toNat (dest src msg plen : BitVec 8) :
    (requestWord (.frame dest src msg plen)).toNat =
      0x01 * 2 ^ 32 + dest.toNat * 2 ^ 24 + src.toNat * 2 ^ 16 + msg.toNat * 2 ^ 8 + plen.toNat := by
  change (0x01#8 ++ (dest ++ src ++ msg ++ plen)).toNat = _
  simp only [toNat_append_eq_add, BitVec.toNat_ofNat]
  omega

theorem requestWord_alert_toNat (sel : Selection) :
    (requestWord (.alert sel)).toNat =
      0x02 * 2 ^ 32 + sel.blink.toNat * 2 ^ 31 + sel.digitValid.toNat * 2 ^ 30 + sel.dir.toNat * 2 ^ 28
        + sel.band.toNat * 2 ^ 24 + sel.strength.toNat * 2 ^ 20 + sel.digit.toNat * 2 ^ 16
        + sel.mainVol.toNat * 2 ^ 8 + sel.muteVol.toNat := by
  change (0x02#8 ++ (BitVec.ofBool sel.blink ++ BitVec.ofBool sel.digitValid ++ sel.dir ++ sel.band ++ sel.strength
    ++ sel.digit ++ sel.mainVol ++ sel.muteVol)).toNat = _
  simp only [toNat_append_eq_add, BitVec.toNat_ofNat, BitVec.toNat_ofBool]
  omega

theorem requestWord_pktHdr_toNat (dest src : BitVec 4) (msg len : BitVec 8) :
    (requestWord (.pktHdr dest src msg len)).toNat =
      0xAA * 2 ^ 32 + 0xD * 2 ^ 28 + dest.toNat * 2 ^ 24 + 0xE * 2 ^ 20 + src.toNat * 2 ^ 16 + msg.toNat * 2 ^ 8
        + len.toNat := by
  change (0xAA#8 ++ (0xD#4 ++ dest ++ 0xE#4 ++ src ++ msg ++ len)).toNat = _
  simp only [toNat_append_eq_add, BitVec.toNat_ofNat]
  omega

/-- The word of a FRAME determines its operands. -/
theorem requestWord_frame_inj {dest src msg plen dest' src' msg' plen' : BitVec 8}
    (h : requestWord (.frame dest src msg plen) = requestWord (.frame dest' src' msg' plen')) :
    Instr.frame dest src msg plen = .frame dest' src' msg' plen' := by
  have hnum := congrArg BitVec.toNat h
  simp only [requestWord_frame_toNat] at hnum
  simp only [Instr.frame.injEq, ← BitVec.toNat_inj]
  omega

theorem bool_toNat_inj {b c : Bool} : b.toNat = c.toNat ↔ b = c :=
  (Function.LeftInverse.injective Bool.ofNat_toNat).eq_iff

/-- The word of an ALERT determines its selection. -/
theorem requestWord_alert_inj {sel sel' : Selection} (h : requestWord (.alert sel) = requestWord (.alert sel')) :
    Instr.alert sel = .alert sel' := by
  have hnum := congrArg BitVec.toNat h
  simp only [requestWord_alert_toNat] at hnum
  obtain ⟨blink, digitValid, dir, band, strength, digit, mainVol, muteVol⟩ := sel
  obtain ⟨blink', digitValid', dir', band', strength', digit', mainVol', muteVol'⟩ := sel'
  have hblink := blink.toNat_lt
  have hblink' := blink'.toNat_lt
  have hvalid := digitValid.toNat_lt
  have hvalid' := digitValid'.toNat_lt
  simp only [Instr.alert.injEq, Selection.mk.injEq, ← BitVec.toNat_inj, ← bool_toNat_inj]
  dsimp only at hnum
  omega

/-- The word of a PKT.HDR determines its fields. -/
theorem requestWord_pktHdr_inj {dest src dest' src' : BitVec 4} {msg len msg' len' : BitVec 8}
    (h : requestWord (.pktHdr dest src msg len) = requestWord (.pktHdr dest' src' msg' len')) :
    Instr.pktHdr dest src msg len = .pktHdr dest' src' msg' len' := by
  have hnum := congrArg BitVec.toNat h
  simp only [requestWord_pktHdr_toNat] at hnum
  simp only [Instr.pktHdr.injEq, ← BitVec.toNat_inj]
  omega

end Sys2Proof
end

section
/-! PROOFS. The decoder of one word by the pattern of each row, and the round trip (30_encoding.md R53, R66). -/

namespace Sys2Proof

/-- The bits that the PKT.HDR row fixes (30_encoding.md R59). -/
def HasHdrPattern (w : Word) : Prop := bits 32 8 w = 0xAA#8 ∧ bits 28 4 w = 0xD#4 ∧ bits 20 4 w = 0xE#4

theorem requestWord_pktHdr_hasHdrPattern (dest src : BitVec 4) (msg len : BitVec 8) :
    HasHdrPattern (requestWord (.pktHdr dest src msg len)) := by
  simp only [HasHdrPattern, bits_eq_iff, requestWord_pktHdr_toNat, BitVec.toNat_ofNat]
  omega

/-- A word reads as a FRAME exactly at operation byte `0x01`. -/
theorem decodeWord_frame_iff (w : Word) :
    (∃ dest src msg plen, decodeWord w = .ok (.frame dest src msg plen)) ↔ bits 32 8 w = 0x01#8 := by
  constructor
  · rintro ⟨dest, src, msg, plen, h⟩
    rw [← requestWord_of_decodeWord h]
    exact (Laws.OpByte.frame dest src msg plen).2
  · exact fun h => ⟨_, _, _, _, if_pos h⟩

/-- A word reads as an ALERT exactly at operation byte `0x02`. -/
theorem decodeWord_alert_iff (w : Word) : (∃ sel, decodeWord w = .ok (.alert sel)) ↔ bits 32 8 w = 0x02#8 := by
  constructor
  · rintro ⟨sel, h⟩
    rw [← requestWord_of_decodeWord h]
    exact (Laws.OpByte.alert sel).2
  · intro h
    have hframe : bits 32 8 w ≠ 0x01#8 := by simp [h]
    exact ⟨_, (if_neg hframe).trans (if_pos h)⟩

theorem decodeWord_pktHdr_iff (w : Word) :
    (∃ dest src msg len, decodeWord w = .ok (.pktHdr dest src msg len)) ↔ HasHdrPattern w := by
  constructor
  · rintro ⟨dest, src, msg, len, h⟩
    rw [← requestWord_of_decodeWord h]
    exact requestWord_pktHdr_hasHdrPattern dest src msg len
  · intro h
    have hframe : bits 32 8 w ≠ 0x01#8 := by simp [h.1]
    have halert : bits 32 8 w ≠ 0x02#8 := by simp [h.1]
    exact ⟨_, _, _, _, (if_neg hframe).trans ((if_neg halert).trans (if_pos h))⟩

/-- A word without the pattern of a row is rejected by the name of its operation byte. -/
theorem decodeWord_of_noPattern {w : Word} (hframe : bits 32 8 w ≠ 0x01#8) (halert : bits 32 8 w ≠ 0x02#8)
    (hhdr : ¬ HasHdrPattern w) : decodeWord w = .error (.illegalOp (bits 32 8 w)) :=
  (if_neg hframe).trans ((if_neg halert).trans (if_neg hhdr))

/-! The round trip: the operation byte says which row is read, and the word determines the operands. -/

@[simp] theorem decodeWord_requestWord_frame (dest src msg plen : BitVec 8) :
    decodeWord (requestWord (.frame dest src msg plen)) = .ok (.frame dest src msg plen) := by
  obtain ⟨_, _, _, _, h⟩ := (decodeWord_frame_iff _).2 (Laws.OpByte.frame dest src msg plen).2
  rw [h, requestWord_frame_inj (requestWord_of_decodeWord h)]

@[simp] theorem decodeWord_requestWord_alert (sel : Selection) :
    decodeWord (requestWord (.alert sel)) = .ok (.alert sel) := by
  obtain ⟨_, h⟩ := (decodeWord_alert_iff _).2 (Laws.OpByte.alert sel).2
  rw [h, requestWord_alert_inj (requestWord_of_decodeWord h)]

@[simp] theorem decodeWord_requestWord_pktHdr (dest src : BitVec 4) (msg len : BitVec 8) :
    decodeWord (requestWord (.pktHdr dest src msg len)) = .ok (.pktHdr dest src msg len) := by
  obtain ⟨_, _, _, _, h⟩ := (decodeWord_pktHdr_iff _).2 (requestWord_pktHdr_hasHdrPattern dest src msg len)
  rw [h, requestWord_pktHdr_inj (requestWord_of_decodeWord h)]

/-- The three words of a PKT.ALERT have its fixed bytes and its operands, byte by byte (30_encoding.md R61). -/
theorem decode_encode_pktAlert (d1 d2 bar b1 b2 vol ck : BitVec 8) :
    decode (encode (.pktAlert d1 d2 bar b1 b2 vol ck)) = .ok (.pktAlert d1 d2 bar b1 b2 vol ck) := by
  have hw1 : (d1 ++ d2 ++ bar ++ b1 ++ b2 : Word).toNat =
      d1.toNat * 2 ^ 32 + d2.toNat * 2 ^ 24 + bar.toNat * 2 ^ 16 + b1.toNat * 2 ^ 8 + b2.toNat := by
    simp only [toNat_append_eq_add]
    omega
  have hw2 : (0x50#8 ++ 0x00#8 ++ vol ++ ck ++ 0xAB#8 : Word).toNat =
      0x50 * 2 ^ 32 + vol.toNat * 2 ^ 16 + ck.toNat * 2 ^ 8 + 0xAB := by
    simp only [toNat_append_eq_add, BitVec.toNat_ofNat]
    omega
  have hwire : isAlertWire 0xAAD8EA3109#40 (0x50#8 ++ 0x00#8 ++ vol ++ ck ++ 0xAB#8) = true := by
    simp only [isAlertWire, Bool.and_eq_true, beq_iff_eq, bits_eq_iff, hw2, BitVec.toNat_ofNat, true_and]
    omega
  rw [encode, decode, if_pos hwire]
  simp only [Except.ok.injEq, Instr.pktAlert.injEq, bits_eq_iff, hw1, hw2]
  omega

/-- Settles O1: a one-word row is read back by its operation byte, PKT.ALERT by the longest match. -/
theorem decodeOfEncode : Obligations.DecodeOfEncode := by
  intro i
  cases i with
  | frame dest src msg plen => exact decodeWord_requestWord_frame dest src msg plen
  | alert sel => exact decodeWord_requestWord_alert sel
  | pktHdr dest src msg len => exact decodeWord_requestWord_pktHdr dest src msg len
  | pktAlert d1 d2 bar b1 b2 vol ck => exact decode_encode_pktAlert d1 d2 bar b1 b2 vol ck

/-- A row of the table whose words are those of an instruction reads as that instruction. -/
theorem decodeTableWord_of_encode {nbits w : Nat} {i : Instr} (h : tableWords nbits w = encode i) :
    decodeTableWord nbits w = some i := by
  rw [decodeTableWord, h, decodeOfEncode i]

/-- Settles O3: the numbers are the words of those instructions, but for the two that are no encoding. -/
theorem writtenWordsDecode : Obligations.WrittenWordsDecode :=
  ⟨decodeTableWord_of_encode (by decide), decodeTableWord_of_encode (by decide),
    decodeTableWord_of_encode (by decide), decodeTableWord_of_encode (by decide),
    decodeTableWord_of_encode (by decide), by decide, decodeTableWord_of_encode (by decide), by decide⟩

/-! Masks: `w &&& mask = match` field by field. -/

theorem bits_and (lo n : Nat) (w m : Word) : bits lo n (w &&& m) = bits lo n w &&& bits lo n m :=
  BitVec.extractLsb'_and

/-- Two words are equal when the fields at which the masks of the table are cut are. -/
theorem word_eq_iff_bits (w w' : Word) :
    w = w' ↔ bits 32 8 w = bits 32 8 w' ∧ bits 28 4 w = bits 28 4 w' ∧ bits 24 4 w = bits 24 4 w' ∧
      bits 20 4 w = bits 20 4 w' ∧ bits 0 20 w = bits 0 20 w' := by
  simp only [← BitVec.toNat_inj, toNat_bits]
  omega

theorem and_mask_eq_iff (w mask c : Word) :
    w &&& mask = c ↔ bits 32 8 w &&& bits 32 8 mask = bits 32 8 c ∧ bits 28 4 w &&& bits 28 4 mask = bits 28 4 c ∧
      bits 24 4 w &&& bits 24 4 mask = bits 24 4 c ∧ bits 20 4 w &&& bits 20 4 mask = bits 20 4 c ∧
      bits 0 20 w &&& bits 0 20 mask = bits 0 20 c := by
  simp only [word_eq_iff_bits, bits_and]

theorem and_byteOnes (v : BitVec 8) : v &&& 0xFF#8 = v := BitVec.and_allOnes

theorem and_nibbleOnes (v : BitVec 4) : v &&& 0xF#4 = v := BitVec.and_allOnes

theorem frameMask_iff (w : Word) : w &&& 0xFF00000000#40 = 0x0100000000#40 ↔ bits 32 8 w = 0x01#8 := by
  simpa [bits, and_byteOnes] using and_mask_eq_iff w 0xFF00000000#40 0x0100000000#40

theorem alertMask_iff (w : Word) : w &&& 0xFF00000000#40 = 0x0200000000#40 ↔ bits 32 8 w = 0x02#8 := by
  simpa [bits, and_byteOnes] using and_mask_eq_iff w 0xFF00000000#40 0x0200000000#40

theorem hdrMask_iff (w : Word) : w &&& 0xFFF0F00000#40 = 0xAAD0E00000#40 ↔ HasHdrPattern w := by
  simpa [HasHdrPattern, bits, and_byteOnes, and_nibbleOnes] using and_mask_eq_iff w 0xFFF0F00000#40 0xAAD0E00000#40

/-- Settles O2: each mask keeps the fields that the pattern of its row fixes. -/
theorem decoderFollowsMatchAndMask : Obligations.DecoderFollowsMatchAndMask := by
  intro w
  rw [frameMask_iff, alertMask_iff, hdrMask_iff]
  refine ⟨decodeWord_frame_iff w, decodeWord_alert_iff w, decodeWord_pktHdr_iff w, fun hframe halert hhdr => ?_⟩
  have hop : bits 32 8 w = BitVec.ofNat 8 (w.toNat / 2 ^ 32) := by
    rw [bits, BitVec.extractLsb', Nat.shiftRight_eq_div_pow]
  rw [← hop]
  exact decodeWord_of_noPattern (mt (frameMask_iff w).2 hframe) (mt (alertMask_iff w).2 halert)
    (mt (hdrMask_iff w).2 hhdr)

end Sys2Proof
end

section
/-! PROOFS. What `Check` says of requests, and of the wire patterns offered as requests (30_encoding.md R53, R57). -/

namespace Sys2Proof.Machine

open Sys2Proof

/-- `Check` passes an ALERT exactly when its band and strength are in range. -/
theorem check_alert_eq_zero_iff (sel : Selection) :
    check (requestWord (.alert sel)) = 0 ↔ sel.band ≤ 4#4 ∧ sel.strength ≤ 8#4 := by
  rw [check_alert]
  simp only [BitVec.le_def, BitVec.toNat_ofNat]
  split_ifs <;> simp <;> omega

/-- Settles O5: both sides are the range of the fields that 30_encoding.md R57 restricts. -/
theorem wellFormedRequestsPassCheck : Obligations.WellFormedRequestsPassCheck := by
  refine ⟨fun dest src msg plen => ?_, fun sel => ?_, check_pktHdr, check_pktAlert⟩
  · rw [check_frame]
    by_cases h : plen = 255 <;> simp [WellFormed, h]
  · rw [check_alert_eq_zero_iff]
    simp [WellFormed]

/-- No band has a reserved code (30_encoding.md R54). -/
theorem bandCode_le (band : Option Band) : (bandCode band).toNat ≤ 4 := by
  cases band with
  | none => decide
  | some b => cases b <;> decide

/-- Settles O6: the band is never reserved, so the strength alone decides. -/
theorem typedSelectionsFaultOnlyOnStrength : Obligations.TypedSelectionsFaultOnlyOnStrength := by
  intro a
  have hband : ¬ 5 ≤ (bandCode a.band).toNat := by have := bandCode_le a.band; omega
  simp only [alertRequest, check_alert, if_neg hband]
  by_cases h : a.strength ≤ 8#4
  · have hle : a.strength.toNat ≤ 8 := h
    rw [if_pos h, if_neg (by omega)]
  · have hlt : 9 ≤ a.strength.toNat := Nat.lt_of_not_le h
    rw [if_neg h, if_pos hlt]
    rfl

/-- An instruction at an idle block is accepted: ACCEPT of its first word (42_sequencer.md R131). -/
theorem exec_of_idle (i : Instr) {s : State} (h : s.block.busy = false) :
    exec i s = .next (accept (requestWord i) s) := by
  rw [exec_eq, runOperation_idle h]

/-- The word of a PKT.HDR, its nibbles and bytes from left to right. -/
theorem requestWord_pktHdr_eq (dest src : BitVec 4) (msg len : BitVec 8) :
    requestWord (.pktHdr dest src msg len) = 0xAA#8 ++ 0xD#4 ++ dest ++ 0xE#4 ++ src ++ msg ++ len := by
  apply BitVec.eq_of_toNat_eq
  rw [requestWord_pktHdr_toNat]
  simp only [toNat_append_eq_add, BitVec.toNat_ofNat]
  omega

/-- Settles O12: an idle block accepts the word, and `Check` faults it. -/
theorem packetHeaderIsIllegalRequest : Obligations.PacketHeaderIsIllegalRequest := by
  intro s dest src msg len hidle
  rw [exec_of_idle _ hidle, accept_eq, check_pktHdr, requestWord_pktHdr_eq]

/-- Settles O13: the word accepted is the first of the three, and `Check` faults it. -/
theorem alertPacketIsIllegalRequest : Obligations.AlertPacketIsIllegalRequest := by
  intro s d1 d2 bar b1 b2 vol ck hidle
  rw [exec_of_idle _ hidle, accept_eq, check_pktAlert]
  rfl

end Sys2Proof.Machine
end

section
/-! PROOFS. The bytes of a packet, and how a reader finds its end (40_frame.md R80, 30_encoding.md R62). -/

namespace Sys2Proof.Machine

open Sys2Proof

/-- The five bytes before the payload, from the operands of `Frame` and the payload's length. -/
def packetHeader (dest src msg len : Nat) : List Byte :=
  [sof, BitVec.ofNat 8 (0xD0 ||| (dest &&& 0xF)), BitVec.ofNat 8 (0xE0 ||| (src &&& 0xF)),
    BitVec.ofNat 8 (msg &&& 0xFF), BitVec.ofNat 8 (len + 1)]

/-- The checksum over header and payload (40_frame.md R84). -/
def packetChecksum (dest src msg : Nat) (p : List Byte) : Byte :=
  BitVec.ofNat 8 ((sumBytes (packetHeader dest src msg p.length) + sumBytes p) % 256)

theorem frame_eq (dest src msg : Nat) (p : List Byte) :
    frame dest src msg p = if p.length ≤ 254 then
      some (packetHeader dest src msg p.length ++ p ++ [packetChecksum dest src msg p, eof]) else none := rfl

theorem frame_eq_some_iff {dest src msg : Nat} {p pkt : List Byte} :
    frame dest src msg p = some pkt ↔
      p.length ≤ 254 ∧ packetHeader dest src msg p.length ++ p ++ [packetChecksum dest src msg p, eof] = pkt := by
  rw [frame_eq]
  split_ifs with h <;> simp [h]

/-- Settles O39: the byte at index 4 is the payload's length and one, which fits a byte. -/
theorem readerFindsTheEnd : Obligations.ReaderFindsTheEnd := by
  intro dest src msg p pkt h
  obtain ⟨hlen, rfl⟩ := frame_eq_some_iff.1 h
  have hbyte : (BitVec.ofNat 8 (p.length + 1)).toNat = p.length + 1 := by
    rw [BitVec.toNat_ofNat]
    omega
  have hindex : (packetHeader dest src msg p.length ++ p ++ [packetChecksum dest src msg p, eof])[4]? =
      some (BitVec.ofNat 8 (p.length + 1)) := rfl
  rw [wireLength, hindex, Option.map_some, hbyte]
  simp [packetHeader]

/-- A nibble under a fixed high nibble. -/
theorem or_nibble (high n : Nat) : high * 2 ^ 4 ||| (n &&& 0xF) = high * 2 ^ 4 + n % 2 ^ 4 := by
  rw [Nat.and_two_pow_sub_one_eq_mod n 4, ← Nat.shiftLeft_eq,
    ← Nat.shiftLeft_add_eq_or_of_lt (Nat.mod_lt n (by decide))]

/-- The header of a packet on the numbers of its bytes. -/
theorem packetHeader_toNat (dest src msg len : Nat) :
    (packetHeader dest src msg len).map BitVec.toNat =
      [0xAA, 0xD0 + dest % 16, 0xE0 + src % 16, msg % 256, (len + 1) % 256] := by
  have hdest : 0xD0 ||| (dest &&& 0xF) = 0xD0 + dest % 16 := or_nibble 0xD dest
  have hsrc : 0xE0 ||| (src &&& 0xF) = 0xE0 + src % 16 := or_nibble 0xE src
  have hmsg : msg &&& 0xFF = msg % 256 := Nat.and_two_pow_sub_one_eq_mod msg 8
  simp [packetHeader, sof, hdest, hsrc, hmsg]
  omega

/-- What `Frame` makes of its numeric operands depends on their residues alone (40_frame.md R86). -/
theorem frame_congr {dest src msg dest' src' msg' : Nat} (hdest : dest' % 16 = dest % 16)
    (hsrc : src' % 16 = src % 16) (hmsg : msg' % 256 = msg % 256) (p : List Byte) :
    frame dest' src' msg' p = frame dest src msg p := by
  have hheader : packetHeader dest' src' msg' p.length = packetHeader dest src msg p.length := by
    apply List.map_injective_iff.2 (fun _ _ => BitVec.eq_of_toNat_eq)
    simp only [packetHeader_toNat, hdest, hsrc, hmsg]
  rw [frame_eq, frame_eq, packetChecksum, packetChecksum, hheader]

end Sys2Proof.Machine
end

section
/-! PROOFS. A packet as the number of spec/opcode_table.json, cut into request words (30_encoding.md R66; log 15). -/

namespace Sys2Proof.Machine

open Sys2Proof

theorem wireNumber_append (a b : List Byte) :
    wireNumber (a ++ b) = wireNumber a * 256 ^ b.length + wireNumber b := by
  induction b using List.reverseRecOn with
  | nil => simp [wireNumber]
  | append_singleton bs x ih =>
    have hsnoc (l : List Byte) : wireNumber (l ++ [x]) = wireNumber l * 256 + x.toNat := List.foldl_concat ..
    rw [← List.append_assoc, hsnoc, hsnoc, ih, List.length_append, List.length_singleton]
    ring

theorem wireNumber_lt (a : List Byte) : wireNumber a < 256 ^ a.length := by
  induction a using List.reverseRecOn with
  | nil => decide
  | append_singleton bs x ih =>
    have hx := x.isLt
    rw [wireNumber_append, List.length_append, pow_add]
    simp [wireNumber] at *
    omega

/-- Five bytes are one request word, the first leftmost. -/
theorem wireNumber_five (a b c d e : Byte) :
    wireNumber [a, b, c, d, e] =
      a.toNat * 2 ^ 32 + b.toNat * 2 ^ 24 + c.toNat * 2 ^ 16 + d.toNat * 2 ^ 8 + e.toNat := by
  simp only [wireNumber, List.foldl_cons, List.foldl_nil]
  omega

theorem ofNat_wireNumber_five (a b c d e : Byte) :
    BitVec.ofNat 40 (wireNumber [a, b, c, d, e]) = a ++ b ++ c ++ d ++ e := by
  apply BitVec.eq_of_toNat_eq
  rw [wireNumber_five]
  simp only [toNat_append_eq_add, BitVec.toNat_ofNat]
  omega

/-- A pattern of more than 40 bits is three request words, the last two of five bytes each. -/
theorem tableWords_wireNumber {a b c : List Byte} (hb : b.length = 5) (hc : c.length = 5) :
    tableWords 120 (wireNumber (a ++ b ++ c)) =
      [BitVec.ofNat 40 (wireNumber a), BitVec.ofNat 40 (wireNumber b), BitVec.ofNat 40 (wireNumber c)] := by
  have hltb : wireNumber b < 2 ^ 40 := (wireNumber_lt b).trans_eq (by rw [hb]; norm_num)
  have hltc : wireNumber c < 2 ^ 40 := (wireNumber_lt c).trans_eq (by rw [hc]; norm_num)
  have hnum : wireNumber (a ++ b ++ c) = wireNumber a * 2 ^ 80 + wireNumber b * 2 ^ 40 + wireNumber c := by
    rw [wireNumber_append, wireNumber_append, hb, hc]
    ring
  rw [hnum, tableWords, if_neg (by decide), Nat.shiftRight_eq_div_pow, Nat.shiftRight_eq_div_pow]
  simp only [List.cons.injEq, ← BitVec.toNat_inj, BitVec.toNat_ofNat, and_true]
  omega

/-- The five bytes of a header spell the word of a PKT.HDR (30_encoding.md R59). -/
theorem ofNat_wireNumber_packetHeader (dest src msg len : Nat) :
    BitVec.ofNat 40 (wireNumber (packetHeader dest src msg len)) =
      requestWord
        (.pktHdr (BitVec.ofNat 4 dest) (BitVec.ofNat 4 src) (BitVec.ofNat 8 msg) (BitVec.ofNat 8 (len + 1))) := by
  have hbytes := packetHeader_toNat dest src msg len
  simp only [packetHeader, List.map_cons, List.map_nil, List.cons.injEq, and_true] at hbytes
  obtain ⟨hsof, hdest, hsrc, hmsg, hlen⟩ := hbytes
  apply BitVec.eq_of_toNat_eq
  rw [requestWord_pktHdr_toNat, packetHeader, BitVec.toNat_ofNat, wireNumber_five, hsof, hdest, hsrc, hmsg, hlen]
  simp only [BitVec.toNat_ofNat]
  omega

/-- The length byte of a packet is never 0 (40_frame.md R83). -/
theorem lengthByte_ne_zero {len : Nat} (h : len ≤ 254) : BitVec.ofNat 8 (len + 1) ≠ 0#8 := by
  rw [ne_eq, ← BitVec.toNat_inj, BitVec.toNat_ofNat]
  change ¬ (len + 1) % 256 = 0
  omega

end Sys2Proof.Machine
end

section
/-! PROOFS. The alert payload and its packet (41_alert.md R112, R113). -/

namespace Sys2Proof.Machine

open Sys2Proof

/-- A payload is the two images, the bar, the reserved bytes and the volumes; there is one only in range
(41_alert.md R109, R112, R115). -/
theorem alertPayload_eq_some {sel : Selection} {p : List Byte} (h : alertPayload sel = some p) :
    ∃ image1 strengthBar, bandImage1 sel.band sel.dir = some image1 ∧ bar sel.strength = some strengthBar ∧
      p = [digitImage1 sel.digitValid sel.digit, digitImage2 sel.blink sel.digitValid sel.digit, strengthBar,
        image1, bandImage2 sel.blink image1, 0x50, 0x00, volumeByte sel.mainVol sel.muteVol] := by
  unfold alertPayload at h
  split at h
  · next image1 strengthBar himage hbar => exact ⟨image1, strengthBar, himage, hbar, (Option.some.inj h).symm⟩
  · cases h

theorem band_le_of_bandImage1 {band : BitVec 4} {dir : BitVec 2} {b : Byte} (h : bandImage1 band dir = some b) :
    band ≤ 4#4 := by
  unfold bandImage1 bandBit at h
  split_ifs at h with hzero hle
  · simp [hzero]
  · exact hle
  · cases h

theorem strength_le_of_bar {strength : BitVec 4} {b : Byte} (h : bar strength = some b) : strength ≤ 8#4 := by
  unfold bar at h
  split_ifs at h with hle
  exact hle

/-- A selection with a payload passes `Check`. -/
theorem check_alert_of_payload {sel : Selection} {p : List Byte} (h : alertPayload sel = some p) :
    check (requestWord (.alert sel)) = 0 := by
  obtain ⟨_, _, himage, hbar, _⟩ := alertPayload_eq_some h
  exact (check_alert_eq_zero_iff sel).2 ⟨band_le_of_bandImage1 himage, strength_le_of_bar hbar⟩

theorem length_of_alertPayload {sel : Selection} {p : List Byte} (h : alertPayload sel = some p) : p.length = 8 := by
  obtain ⟨_, _, _, _, rfl⟩ := alertPayload_eq_some h
  rfl

theorem alertPacket_of_payload {sel : Selection} {p : List Byte} (h : alertPayload sel = some p) :
    alertPacket sel = frame 0x08 0x0A 0x31 p := by
  rw [alertPacket, h, Option.bind_some]

/-- Blinking, an `image2` byte is 0, and else `image1` (41_alert.md R104, R107). -/
theorem digitImage2_eq (blink digitValid : Bool) (digit : BitVec 4) :
    digitImage2 blink digitValid digit = digitImage1 digitValid digit ∨ digitImage2 blink digitValid digit = 0 := by
  unfold digitImage2
  split_ifs
  · exact .inr rfl
  · exact .inl rfl

theorem bandImage2_eq (blink : Bool) (image1 : Byte) :
    bandImage2 blink image1 = image1 ∨ bandImage2 blink image1 = 0 := by
  cases blink
  · exact .inl rfl
  · exact .inr rfl

/-- The header of an alert packet is `AA D8 EA 31 09` (41_alert.md R113). -/
theorem packetHeader_alert : packetHeader 0x08 0x0A 0x31 8 = [0xAA, 0xD8, 0xEA, 0x31, 0x09] := by decide

/-- The checksum of an alert packet is that of its wire pattern. -/
theorem packetChecksum_alert (d1 d2 bar b1 b2 vol : Byte) :
    packetChecksum 0x08 0x0A 0x31 [d1, d2, bar, b1, b2, 0x50, 0x00, vol] = alertWireSum d1 d2 bar b1 b2 vol := by
  apply BitVec.eq_of_toNat_eq
  rw [packetChecksum, show [d1, d2, bar, b1, b2, 0x50, 0x00, vol].length = 8 from rfl, packetHeader_alert]
  simp [sumBytes, alertWireSum]
  omega

/-- The fifteen bytes of an alert packet spell the three words of a PKT.ALERT (30_encoding.md R61). -/
theorem tableWords_alertPacket (d1 d2 bar b1 b2 vol ck : Byte) :
    tableWords 120 (wireNumber ([0xAA, 0xD8, 0xEA, 0x31, 0x09] ++ [d1, d2, bar, b1, b2] ++ [0x50, 0x00, vol, ck, 0xAB]))
      = encode (.pktAlert d1 d2 bar b1 b2 vol ck) := by
  rw [tableWords_wireNumber rfl rfl, ofNat_wireNumber_five d1, ofNat_wireNumber_five 0x50]
  rfl

/-- Settles O40: the bytes of a packet are the words of its pattern, which the decoder reads back. -/
theorem packetsMatchTheWirePatterns : Obligations.PacketsMatchTheWirePatterns := by
  constructor
  · intro dest src msg p pkt h
    obtain ⟨hlen, rfl⟩ := frame_eq_some_iff.1 h
    refine ⟨decodeTableWord_of_encode ?_, by simpa [WellFormed] using lengthByte_ne_zero hlen⟩
    exact congrArg (fun w => [w]) (ofNat_wireNumber_packetHeader dest src msg p.length)
  · intro sel pkt h
    obtain ⟨p, hp, hframe⟩ := Option.bind_eq_some_iff.1 h
    obtain ⟨image1, strengthBar, _, _, rfl⟩ := alertPayload_eq_some hp
    obtain ⟨_, rfl⟩ := frame_eq_some_iff.1 hframe
    refine ⟨_, _, _, _, _, _, _, hp, decodeTableWord_of_encode (tableWords_alertPacket ..), ?_⟩
    rw [packetChecksum_alert]
    have hdigit := digitImage2_eq sel.blink sel.digitValid sel.digit
    have hband := bandImage2_eq sel.blink image1
    simpa [WellFormed] using ⟨hdigit, hband⟩

end Sys2Proof.Machine
end

section
/-! PROOFS. The response to a request: the bits it depends on (30_encoding.md R57, R65). -/

namespace Sys2Proof.Machine

open Sys2Proof

/-- The response is a function of the fault code and the packet. -/
theorem response_congr {r r' : Word} {v v' : List Byte} (hcheck : check r' = check r)
    (hpacket : packetOf r' v' = packetOf r v) : response r' v' = response r v := by
  rw [response, response, hcheck, hpacket]

theorem packetOf_frame (dest src msg plen : BitVec 8) (v : List Byte) :
    packetOf (requestWord (.frame dest src msg plen)) v =
      if check (requestWord (.frame dest src msg plen)) ≠ 0 then none
      else frame dest.toNat src.toNat msg.toNat v := by
  rw [packetOf, decodeWord_requestWord_frame]

theorem packetOf_alert (sel : Selection) (v : List Byte) :
    packetOf (requestWord (.alert sel)) v =
      if check (requestWord (.alert sel)) ≠ 0 then none else alertPacket sel := by
  rw [packetOf, decodeWord_requestWord_alert]

theorem packetBeats_ne_nil {pkt : List Byte} (h : pkt ≠ []) : packetBeats pkt ≠ [] := by
  match pkt, h with
  | [_], _ => simp [packetBeats]
  | _ :: _ :: _, _ => simp [packetBeats]

theorem response_of_packetOf {r : Word} {v pkt : List Byte} (hcheck : check r = 0) (h : packetOf r v = some pkt) :
    response r v = packetBeats pkt := by
  simp [response, hcheck, h]

theorem packetOf_alertFrame {p : List Byte} : packetOf 0x01080A3108#40 p = frame 0x08 0x0A 0x31 p :=
  packetOf_frame 0x08 0x0A 0x31 0x08 p

/-- Settles O41: both requests pass `Check`, and both packets are `Frame` of the payload. -/
theorem alertIsFrameOfItsPayload : Obligations.AlertIsFrameOfItsPayload := by
  intro sel p hp
  have hcheck : check 0x01080A3108#40 = 0 := by decide
  have halert := check_alert_of_payload hp
  have hlen : p.length ≤ 254 := (length_of_alertPayload hp).le.trans (by decide)
  have hframe : frame 0x08 0x0A 0x31 p = some _ := frame_eq_some_iff.2 ⟨hlen, rfl⟩
  constructor
  · apply response_congr (halert.trans hcheck.symm)
    rw [packetOf_alert, if_neg (by simp [halert]), alertPacket_of_payload hp, packetOf_alertFrame]
  · rw [response_of_packetOf hcheck (packetOf_alertFrame.trans hframe)]
    exact packetBeats_ne_nil (by simp)

/-- The nibble that a volume keeps (00_scope.md R6). -/
theorem and_nibble_congr {a b : Byte} (h : a.toNat % 16 = b.toNat % 16) : a &&& 0x0F = b &&& 0x0F := by
  apply BitVec.eq_of_toNat_eq
  have hmask (n : Nat) : n &&& 0xF = n % 16 := Nat.and_two_pow_sub_one_eq_mod n 4
  simpa [hmask] using h

/-- Without a valid digit the digit does not show (41_alert.md R102). -/
theorem digitImage1_hasDigit_congr {digitValid : Bool} {digit digit' : BitVec 4}
    (h : digitValid = true → digit' = digit) :
    digitImage1 digitValid digit' = digitImage1 digitValid digit ∧
      hasDigit digitValid digit' = hasDigit digitValid digit := by
  cases digitValid with
  | false => exact ⟨rfl, rfl⟩
  | true => rw [h rfl]; exact ⟨rfl, rfl⟩

/-- A request with a reserved operation byte is answered with the one fault beat, code 1 (30_encoding.md R53). -/
theorem check_of_reserved {r : Word} (hframe : r.toNat / 2 ^ 32 ≠ 1) (halert : r.toNat / 2 ^ 32 ≠ 2) :
    check r = 1 := by
  have hop (op : BitVec 8) (h : r.toNat / 2 ^ 32 ≠ op.toNat) : bits 32 8 r ≠ op := by
    rw [ne_eq, bits_eq_iff]
    omega
  rw [check, checkCause, if_neg (hop 1#8 hframe), if_neg (hop 2#8 halert)]
  rfl

theorem response_of_reserved {r : Word} (v : List Byte) (hframe : r.toNat / 2 ^ 32 ≠ 1)
    (halert : r.toNat / 2 ^ 32 ≠ 2) : response r v = [{ fault := true, data := 1, last := true }] := by
  rw [response, check_of_reserved hframe halert]
  rfl

/-- Settles O42: an ignored bit enters neither the fault code nor the packet. -/
theorem ignoredBitsDoNotShow : Obligations.IgnoredBitsDoNotShow := by
  refine ⟨?frame, ?alert, ?reserved⟩
  case frame =>
    intro dest src dest' src' msg plen v hdest hsrc
    have hcheck : check (requestWord (.frame dest' src' msg plen)) =
        check (requestWord (.frame dest src msg plen)) := by
      rw [check_frame, check_frame]
    refine response_congr hcheck ?_
    rw [packetOf_frame, packetOf_frame, hcheck, frame_congr hdest hsrc rfl]
  case alert =>
    intro sel sel' v hblink hvalid hdir hband hstrength hdigit hmain hmute
    have hcheck : check (requestWord (.alert sel')) = check (requestWord (.alert sel)) := by
      rw [check_alert, check_alert, hband, hstrength]
    have hpayload : alertPayload sel' = alertPayload sel := by
      obtain ⟨himage, hhas⟩ := digitImage1_hasDigit_congr hdigit
      simp only [alertPayload, digitImage2, volumeByte, hblink, hvalid, hdir, hband, hstrength, himage, hhas,
        and_nibble_congr hmain, and_nibble_congr hmute]
    refine response_congr hcheck ?_
    rw [packetOf_alert, packetOf_alert, hcheck, alertPacket, alertPacket, hpayload]
  case reserved =>
    intro r r' v v' hframe halert hop
    rw [response_of_reserved v hframe halert, response_of_reserved v' (hop ▸ hframe) (hop ▸ halert)]

end Sys2Proof.Machine
end

section
/-! PROOFS. FRAME at an idle block (40_frame.md R81, R87). -/

namespace Sys2Proof.Machine

open Sys2Proof

/-- The word of a FRAME, its bytes from left to right. -/
theorem requestWord_frame_eq (dest src msg plen : BitVec 8) :
    requestWord (.frame dest src msg plen) = 0x01#8 ++ dest ++ src ++ msg ++ plen := by
  apply BitVec.eq_of_toNat_eq
  rw [requestWord_frame_toNat]
  simp only [toNat_append_eq_add, BitVec.toNat_ofNat]
  omega

/-- Settles O10: an idle block accepts the word, and `Check` faults it at `plen = 255` only. -/
theorem frameAccepted : Obligations.FrameAccepted := by
  intro s dest src msg plen hidle
  rw [exec_of_idle _ hidle, accept_eq, check_frame, requestWord_frame_eq]

end Sys2Proof.Machine
end

section
/-! PROOFS. The shape of a packet and its checksum (40_frame.md R84, R86). -/

namespace Sys2Proof.Machine

open Sys2Proof

@[simp] theorem sumBytes_append (p q : List Byte) : sumBytes (p ++ q) = sumBytes p + sumBytes q := by
  simp [sumBytes]

@[simp] theorem length_packetHeader (dest src msg len : Nat) : (packetHeader dest src msg len).length = 5 := rfl

/-- The header of a packet sums to `0x5A` and its operands, mod 256 (40_frame.md R84). -/
theorem sumBytes_packetHeader_mod (dest src msg len : Nat) :
    sumBytes (packetHeader dest src msg len) % 256 = (0x5A + dest % 16 + src % 16 + msg % 256 + len + 1) % 256 := by
  rw [sumBytes, packetHeader_toNat]
  simp only [List.sum_cons, List.sum_nil]
  omega

theorem packetChecksum_toNat (dest src msg : Nat) (p : List Byte) :
    (packetChecksum dest src msg p).toNat = sumBytes (packetHeader dest src msg p.length ++ p) % 256 := by
  rw [packetChecksum, sumBytes_append, BitVec.toNat_ofNat]
  exact Nat.mod_mod _ _

/-- Of the payload the checksum keeps its length and its sum mod 256. -/
theorem packetChecksum_congr (dest src msg : Nat) {p p' : List Byte} (hlen : p'.length = p.length)
    (hsum : sumBytes p' % 256 = sumBytes p % 256) :
    packetChecksum dest src msg p' = packetChecksum dest src msg p := by
  apply BitVec.eq_of_toNat_eq
  rw [packetChecksum_toNat, packetChecksum_toNat, sumBytes_append, sumBytes_append, hlen, Nat.add_mod, hsum,
    ← Nat.add_mod]

theorem frame_of_length_le (dest src msg : Nat) {p : List Byte} (h : p.length ≤ 254) :
    frame dest src msg p =
      some (packetHeader dest src msg p.length ++ p ++ [packetChecksum dest src msg p, eof]) :=
  frame_eq_some_iff.2 ⟨h, rfl⟩

theorem length_of_frame {dest src msg : Nat} {p pkt : List Byte} (h : frame dest src msg p = some pkt) :
    pkt.length = p.length + 7 := by
  obtain ⟨_, rfl⟩ := frame_eq_some_iff.1 h
  simp
  omega

/-- The first five bytes of a packet are those of its header, on the numbers `packetHeader_toNat` gives. -/
theorem toNat_of_frame_header {dest src msg : Nat} {p pkt : List Byte} (h : frame dest src msg p = some pkt)
    {i n : Nat} (hi : i < 5)
    (hn : [0xAA, 0xD0 + dest % 16, 0xE0 + src % 16, msg % 256, (p.length + 1) % 256][i]? = some n) (b : Byte)
    (hb : pkt[i]? = some b) : b.toNat = n := by
  obtain ⟨_, rfl⟩ := frame_eq_some_iff.1 h
  rw [List.append_assoc, List.getElem?_append_left hi] at hb
  rw [← packetHeader_toNat, List.getElem?_map, hb, Option.map_some] at hn
  exact Option.some.inj hn

/-- What a packet holds around its payload. -/
theorem frame_parts {dest src msg : Nat} {p pkt : List Byte} (h : frame dest src msg p = some pkt) :
    pkt.take 5 = packetHeader dest src msg p.length ∧ (pkt.drop 5).take p.length = p ∧
      pkt.drop (5 + p.length) = [packetChecksum dest src msg p, eof] := by
  obtain ⟨_, rfl⟩ := frame_eq_some_iff.1 h
  refine ⟨rfl, List.take_left' rfl, ?_⟩
  exact List.drop_left' (by simp)

/-- `EOF` ends a packet (40_frame.md R86). -/
theorem frame_eq_concat_eof {dest src msg : Nat} {p pkt : List Byte} (h : frame dest src msg p = some pkt) :
    ∃ q, q.length = p.length + 6 ∧ pkt = q ++ [eof] := by
  obtain ⟨_, rfl⟩ := frame_eq_some_iff.1 h
  exact ⟨packetHeader dest src msg p.length ++ p ++ [packetChecksum dest src msg p], by simp; omega, by simp⟩

/-- Settles O37: the packet is header, payload, checksum and `EOF`, and for another payload with the same length and sum
mod 256 the header and the checksum are the same. -/
theorem framePacketShape : Obligations.FramePacketShape := by
  intro dest src msg p
  refine ⟨fun hlong => by rw [frame_eq, if_neg (by omega)], fun hlen => ?_⟩
  have hframe := frame_of_length_le dest src msg hlen
  obtain ⟨htake, hpayload, hdrop⟩ := frame_parts hframe
  refine ⟨_, hframe, length_of_frame hframe, rfl, by simp [eof], toNat_of_frame_header hframe (by decide) rfl,
    toNat_of_frame_header hframe (by decide) rfl, toNat_of_frame_header hframe (by decide) rfl,
    toNat_of_frame_header hframe (by decide) ?lengthByte, hpayload, ?depends⟩
  case lengthByte => exact congrArg some (Nat.mod_eq_of_lt (by omega))
  case depends =>
    intro dest' src' msg' p' hdest hsrc hmsg hlen' hsum
    obtain ⟨pkt', hframe'⟩ : ∃ pkt', frame dest src msg p' = some pkt' :=
      ⟨_, frame_of_length_le dest src msg (hlen'.trans_le hlen)⟩
    obtain ⟨htake', -, hdrop'⟩ := frame_parts hframe'
    rw [hlen'] at htake' hdrop'
    rw [packetChecksum_congr dest src msg hlen' hsum] at hdrop'
    exact ⟨pkt', (frame_congr hdest hsrc hmsg p').trans hframe', htake'.trans htake.symm, hdrop'.trans hdrop.symm⟩

/-- Settles O38: the checksum is the sum over header and payload, which are all that comes before it. -/
theorem checksumRoundTrip : Obligations.ChecksumRoundTrip := by
  intro dest src msg p pkt h
  obtain ⟨_, rfl⟩ := frame_eq_some_iff.1 h
  have hbefore : (packetHeader dest src msg p.length ++ p).length = p.length + 5 := by simp [Nat.add_comm]
  refine ⟨packetChecksum dest src msg p, ?_, ?_, ?_, ?_⟩
  · rw [List.getElem?_append_right hbefore.le, hbefore, Nat.sub_self]
    rfl
  · rw [List.getElem?_append_right (by omega), hbefore, Nat.add_sub_add_left]
    rfl
  · rw [length_of_frame h, packetChecksum_toNat, List.take_left' (by omega)]
  · rw [packetChecksum_toNat, sumBytes_append, Nat.add_mod, sumBytes_packetHeader_mod, ← Nat.add_mod]

end Sys2Proof.Machine
end

section
/-! PROOFS. The beat that ends an operation closes the packet of its response (42_sequencer.md R138). -/

namespace Sys2Proof.Machine

open Sys2Proof

/-- `out_last` marks the last byte of a packet and no other (30_encoding.md R63). -/
theorem packetBeats_concat (q : List Byte) (b : Byte) :
    packetBeats (q ++ [b]) =
      q.map (fun c => { fault := false, data := c, last := false }) ++
        [{ fault := false, data := b, last := true }] := by
  induction q with
  | nil => rfl
  | cons c q ih =>
    cases q with
    | nil => rfl
    | cons d q => exact congrArg (_ :: ·) ih

theorem map_data_packetBeats (pkt : List Byte) : (packetBeats pkt).map (·.data) = pkt := by
  induction pkt using packetBeats.induct with
  | case1 => rfl
  | case2 b => rfl
  | case3 b c rest ih => exact congrArg (b :: ·) ih

/-- A request that passes `Check` yields a packet of `Frame`, whose payload is as long as the effective operands say. -/
theorem packetOf_of_check {r : Word} {v : List Byte} (hcheck : check r = 0) (hv : v.length = payloadReads r) :
    ∃ dest src msg p pkt, packetOf r v = some pkt ∧ frame dest src msg p = some pkt ∧
      p.length = (operandsOf r).len := by
  rcases decodeWord_of_check hcheck with ⟨dest, src, msg, plen, hr, hlen⟩ | ⟨sel, hr, hband, hstrength⟩
  · have hplen : v.length = plen.toNat := by simpa [payloadReads, hcheck, hr] using hv
    have hframe := frame_of_length_le dest.toNat src.toNat msg.toNat (hplen.trans_le hlen)
    refine ⟨_, _, _, v, _, ?_, hframe, by rw [operandsOf_frame hr, hplen]; rfl⟩
    simpa [packetOf, hcheck, hr] using hframe
  · obtain ⟨p, hp, hlen⟩ := alertPayload_of_inRange hband hstrength
    have hframe := frame_of_length_le 0x08 0x0A 0x31 (hlen.trans_le (by decide))
    refine ⟨_, _, _, p, _, ?_, hframe, by rw [operandsOf_alert hr, hlen]; rfl⟩
    simpa [packetOf, hcheck, hr, alertPacket_of_payload hp] using hframe

/-- A step other than RESET that ends an operation that passed `Check` is EMIT-BYTE at the last index, `L + 6`. -/
theorem step_of_lastBeat {s t : State} (hbusy : s.block.busy = true) (hf : s.block.fcode = 0)
    (hrst : s.host.rst = false) (hstep : step s = .next t) (hidle : t.block.busy = false) :
    t = emitByte (operandsOf s.block.rq) (turnTaken s) ∧ s.block.idx.toNat = (operandsOf s.block.rq).len + 6 := by
  rcases step_cases s with ⟨m, ts, _, hmove, _⟩ | ⟨_, t', ht', hblock⟩
  · obtain rfl := Host.Outcome.next.inj (hmove.symm.trans hstep)
    simp [hbusy] at hidle
  · obtain rfl := Host.Outcome.next.inj (ht'.symm.trans hstep)
    cases hblock with
    | reset hr => simp [hrst] at hr
    | stall => simp [hbusy] at hidle
    | idle _ hb => simp [hbusy] at hb
    | accept _ hb => simp [hbusy] at hb
    | fault _ _ _ hne => exact absurd hf hne
    | emit =>
      refine ⟨rfl, (isLast_iff _ _).1 ?_⟩
      by_contra hlast
      simp [emitByte_eq, hlast, hbusy] at hidle

/-- The step that ends an operation that passed `Check` closes its response, whatever the host did in between: the beats
before it were all of the packet but `EOF`. -/
theorem beatsOf_of_lastBeat {s t : State} (hinv : OperationInv s) (hbusy : s.block.busy = true)
    (hf : s.block.fcode = 0) (hrst : s.host.rst = false) (hstep : step s = .next t) (hidle : t.block.busy = false) :
    ∃ pre es v, t.trace = pre ++ .accept s.block.rq :: es ∧ v.length = payloadReads s.block.rq ∧
      beatsOf es = response s.block.rq v := by
  obtain ⟨rfl, hlast⟩ := step_of_lastBeat hbusy hf hrst hstep hidle
  obtain ⟨hcode, pre, es, v, htrace, hflight⟩ := hinv hbusy
  have hcheck : check s.block.rq = 0 := hcode.symm.trans hf
  rw [inFlightAfter, if_pos hf] at hflight
  obtain ⟨hv, -, hbeats, -, -⟩ := hflight
  obtain ⟨dest, src, msg, p, pkt, hpkt, hframe, hlen⟩ := packetOf_of_check hcheck hv
  refine ⟨pre, _, v, by rw [emitByte_trace, turnTaken_trace, htrace, List.append_assoc, List.cons_append], hv, ?_⟩
  rw [response_of_packetOf hcheck hpkt] at hbeats ⊢
  obtain ⟨q, hq, rfl⟩ := frame_eq_concat_eof hframe
  have hslot : currentSlot (operandsOf s.block.rq) (turnTaken s) = .value eof := by
    rw [currentSlot, turnTaken_block, hlast, Nat.add_comm, packetSlot_eof]
  rw [packetBeats_concat, List.take_left' (by simp [hq, hlen, hlast])] at hbeats
  rw [packetBeats_concat]
  rw [beatsOf_append, hbeats, beatsOf_append, beatsOf_slotReads, hslot, turnTaken_block, (isLast_iff _ _).2 hlast]
  rfl

/-- Settles O48: the bytes sent are a packet of `Frame`, so the checksum in it is that of O38. -/
theorem sentChecksumIsTheSumOfSentBytes : Obligations.SentChecksumIsTheSumOfSentBytes := by
  intro s t hinv hbusy hf hrst hstep hidle
  obtain ⟨pre, es, v, htrace, hv, hbeats⟩ := beatsOf_of_lastBeat hinv hbusy hf hrst hstep hidle
  obtain ⟨hcode, -⟩ := hinv hbusy
  have hcheck : check s.block.rq = 0 := hcode.symm.trans hf
  obtain ⟨dest, src, msg, p, pkt, hpkt, hframe, -⟩ := packetOf_of_check hcheck hv
  have hlength := length_of_frame hframe
  obtain ⟨cs, hcs, heof, hsum, -⟩ := checksumRoundTrip dest src msg p pkt hframe
  refine ⟨pre, es, htrace, ?_⟩
  rw [hbeats, response_of_packetOf hcheck hpkt, map_data_packetBeats]
  refine ⟨by omega, ?_, ?_⟩
  · rw [List.getLast?_eq_getElem?, hlength]
    exact heof
  · rw [← hsum, hlength, show p.length + 7 - 2 = p.length + 5 from rfl, hcs]
    rfl

end Sys2Proof.Machine
end

section
/-! PROOFS. ALERT at an idle block (41_alert.md R100). -/

namespace Sys2Proof.Machine

open Sys2Proof

/-- Settles O11: an idle block accepts the word, and `Check` faults it for its band before its strength. -/
theorem alertAccepted : Obligations.AlertAccepted := by
  intro s sel hidle
  rw [exec_of_idle _ hidle, accept_eq, check_alert]
  rfl

end Sys2Proof.Machine
end

section
/-! PROOFS. The digit images (41_alert.md R101 to R104). -/

namespace Sys2Proof.Machine

open Sys2Proof

/-- The entries of the seven-segment table. -/
def segments : List Byte := [0x3F, 0x06, 0x5B, 0x4F, 0x66, 0x6D, 0x7D, 0x07, 0x7F, 0x6F]

theorem seg_eq (digit : BitVec 4) : seg digit = segments[digit.toNat]? := rfl

/-- The table ends at 9. -/
theorem seg_eq_some_iff (digit : BitVec 4) : (∃ b, seg digit = some b) ↔ digit.toNat ≤ 9 := by
  have hlen : segments.length = 10 := rfl
  rw [seg_eq, ← Option.isSome_iff_exists, isSome_getElem?, hlen]
  exact Nat.lt_succ_iff

theorem mem_segments_of_seg {digit : BitVec 4} {b : Byte} (h : seg digit = some b) : b ∈ segments :=
  List.mem_of_getElem? h

/-- Bit 7 of every entry is 0, and no entry is 0 (41_alert.md R101). -/
theorem segments_lit : ∀ b ∈ segments, b.getLsbD 7 = false ∧ b ≠ 0 := by simp [segments]

theorem hasDigit_iff (digitValid : Bool) (digit : BitVec 4) :
    hasDigit digitValid digit = true ↔ digitValid = true ∧ digit.toNat ≤ 9 := by
  simp [hasDigit, BitVec.le_def]

theorem digitImage1_of_not_hasDigit {digitValid : Bool} {digit : BitVec 4} (h : ¬ hasDigit digitValid digit = true) :
    digitImage1 digitValid digit = 0x00 := if_neg h

/-- A valid digit shows its entry of the table. -/
theorem seg_of_hasDigit {digitValid : Bool} {digit : BitVec 4} (h : hasDigit digitValid digit = true) :
    seg digit = some (digitImage1 digitValid digit) := by
  obtain ⟨b, hb⟩ := (seg_eq_some_iff digit).2 ((hasDigit_iff ..).1 h).2
  rw [digitImage1, if_pos h, hb, Option.getD_some]

/-- `digit_image1` is a total function of the digit inputs (41_alert.md R103). -/
theorem some_digitImage1 (digitValid : Bool) (digit : BitVec 4) :
    some (digitImage1 digitValid digit) =
      if digitValid = true ∧ digit.toNat ≤ 9 then seg digit else some 0x00 := by
  by_cases h : hasDigit digitValid digit = true
  · rw [if_pos ((hasDigit_iff ..).1 h), seg_of_hasDigit h]
  · rw [if_neg (mt (hasDigit_iff ..).2 h), digitImage1_of_not_hasDigit h]

/-- Without a digit there is nothing to blank, so a blinking second image is always 0 (41_alert.md R104). -/
theorem digitImage2_eq_ite (blink digitValid : Bool) (digit : BitVec 4) :
    digitImage2 blink digitValid digit = if blink then 0x00 else digitImage1 digitValid digit := by
  cases blink with
  | false => rfl
  | true =>
    rw [digitImage2, Bool.true_and, if_pos rfl]
    split_ifs with h
    · rfl
    · exact digitImage1_of_not_hasDigit h

theorem digitImage1_toNat (digitValid : Bool) (digit : BitVec 4) :
    (digitImage1 digitValid digit).toNat =
      if digitValid = true ∧ digit.toNat ≤ 9 then (segments.map BitVec.toNat).getD digit.toNat 0 else 0 := by
  have himage := some_digitImage1 digitValid digit
  split_ifs at himage ⊢
  · rw [List.getD_eq_getElem?_getD, List.getElem?_map, ← seg_eq, ← himage, Option.map_some, Option.getD_some]
  · rw [Option.some.inj himage]
    rfl

/-- Settles O29: the claims on every entry are read off the ten entries. -/
theorem segmentTable : Obligations.SegmentTable := by
  refine ⟨by decide, fun d b h => segments_lit b (mem_segments_of_seg h), fun d hle => ?_⟩
  have hdigit : hasDigit true d = true := (hasDigit_iff ..).2 ⟨rfl, hle⟩
  obtain ⟨-, hne⟩ := segments_lit _ (mem_segments_of_seg (seg_of_hasDigit hdigit))
  exact hne

/-- Settles O30: `Check` reads the band and the strength only. -/
theorem digitBlinks : Obligations.DigitBlinks := by
  refine ⟨fun sel digitValid digit => by rw [check_alert, check_alert], fun blink digitValid digit =>
    ⟨hasDigit_iff .., some_digitImage1 .., ?_, digitImage2_eq_ite ..⟩⟩
  simp only [digitImage2, Bool.and_eq_true, hasDigit_iff]

end Sys2Proof.Machine
end

section
/-! PROOFS. The band image: a band bit below bit 4, a direction bit above it (41_alert.md R105, R106). -/

namespace Sys2Proof.Machine

open Sys2Proof

/-- `BandBit` as a number: bit `band - 1`, or nothing for band 0. -/
def bandBits (band : BitVec 4) : Nat := if band.toNat = 0 then 0 else 2 ^ (band.toNat - 1)

/-- `DirBit` as a number: bit `dir + 4`, or nothing for direction 0. -/
def dirBits (dir : BitVec 2) : Nat := if dir.toNat = 0 then 0 else 2 ^ (dir.toNat + 4)

theorem bandBit_eq (band : BitVec 4) :
    bandBit band = if band.toNat ≤ 4 then some (BitVec.ofNat 8 (bandBits band)) else none := by
  by_cases hzero : band = 0#4
  · subst hzero
    rfl
  · have hne : band.toNat ≠ 0 := mt (BitVec.eq_of_toNat_eq (y := 0#4)) hzero
    rw [bandBit, if_neg hzero, bandBits, if_neg hne, Nat.one_shiftLeft]
    rfl

theorem dirBit_eq (dir : BitVec 2) : dirBit dir = BitVec.ofNat 8 (dirBits dir) := by
  by_cases hzero : dir = 0#2
  · subst hzero
    rfl
  · have hne : dir.toNat ≠ 0 := mt (BitVec.eq_of_toNat_eq (y := 0#2)) hzero
    rw [dirBit, if_neg hzero, dirBits, if_neg hne, Nat.one_shiftLeft]

theorem bandBits_lt {band : BitVec 4} (h : band.toNat ≤ 4) : bandBits band < 2 ^ 4 := by
  unfold bandBits
  split_ifs
  · decide
  · exact Nat.pow_lt_pow_right (by decide) (by omega)

/-- `DirBit` leaves the low nibble clear. -/
theorem dirBits_eq_shiftLeft (dir : BitVec 2) : ∃ k, k < 2 ^ 4 ∧ dirBits dir = k <<< 4 := by
  unfold dirBits
  split_ifs
  · exact ⟨0, by decide, rfl⟩
  · exact ⟨2 ^ dir.toNat, Nat.pow_lt_pow_right (by decide) dir.isLt, by rw [Nat.shiftLeft_eq, pow_add]⟩

theorem testBit_bandBits (band : BitVec 4) (n : Nat) : (bandBits band).testBit n = true ↔ n + 1 = band.toNat := by
  unfold bandBits
  split_ifs with h
  · simp [h]
  · rw [Nat.testBit_two_pow, decide_eq_true_eq]
    omega

theorem testBit_dirBits (dir : BitVec 2) (n : Nat) :
    (dirBits dir).testBit n = true ↔ 4 < n ∧ n = dir.toNat + 4 := by
  unfold dirBits
  split_ifs with h
  · exact iff_of_false (by simp) (by omega)
  · rw [Nat.testBit_two_pow, decide_eq_true_eq]
    omega

theorem bandImage1_of_le {band : BitVec 4} (h : band.toNat ≤ 4) (dir : BitVec 2) :
    bandImage1 band dir = some (BitVec.ofNat 8 (bandBits band ||| dirBits dir)) := by
  rw [bandImage1, bandBit_eq, if_pos h, dirBit_eq, Option.map_some, BitVec.ofNat_or]

/-- A reserved band code has no image (41_alert.md R115). -/
theorem bandImage1_eq_none_iff (band : BitVec 4) (dir : BitVec 2) :
    bandImage1 band dir = none ↔ 5 ≤ band.toNat := by
  by_cases h : band.toNat ≤ 4
  · exact iff_of_false (by simp [bandImage1_of_le h]) (by omega)
  · exact iff_of_true (by rw [bandImage1, bandBit_eq, if_neg h, Option.map_none]) (by omega)

/-- A band bit and a direction bit never meet, so the image is their sum. -/
theorem toNat_of_bandImage1 {band : BitVec 4} {dir : BitVec 2} {b : Byte} (h : bandImage1 band dir = some b) :
    b.toNat = bandBits band + dirBits dir := by
  have hband : band.toNat ≤ 4 := band_le_of_bandImage1 h
  rw [bandImage1_of_le hband, Option.some.injEq] at h
  obtain ⟨k, hk, hdir⟩ := dirBits_eq_shiftLeft dir
  have hlt := bandBits_lt hband
  have hor : bandBits band ||| dirBits dir = bandBits band + dirBits dir := by
    rw [hdir, Nat.or_comm, ← Nat.shiftLeft_add_eq_or_of_lt hlt, Nat.add_comm]
  rw [Nat.shiftLeft_eq] at hdir
  rw [← h, hor, BitVec.toNat_ofNat, Nat.mod_eq_of_lt (by omega)]

/-- Which bits of the image are set: bit `band - 1`, and bit `dir + 4` (41_alert.md R105). -/
theorem getLsbD_of_bandImage1 {band : BitVec 4} {dir : BitVec 2} {b : Byte} (h : bandImage1 band dir = some b)
    (n : Nat) : b.getLsbD n = true ↔ n + 1 = band.toNat ∨ (4 < n ∧ n = dir.toNat + 4) := by
  have hband : band.toNat ≤ 4 := band_le_of_bandImage1 h
  rw [bandImage1_of_le hband, Option.some.injEq] at h
  have hdir := dir.isLt
  rw [← h, BitVec.getLsbD_ofNat, Nat.testBit_or, Bool.and_eq_true, Bool.or_eq_true, testBit_bandBits, testBit_dirBits,
    decide_eq_true_eq]
  omega

/-- Settles O31: a band bit has an index below 4 and a direction bit one above 4, each fixed by its code. -/
theorem bandImageTable : Obligations.BandImageTable := by
  refine ⟨by decide, fun band dir => (bandImage1_eq_none_iff band dir).symm, fun band dir b h => ?_⟩
  have hband : band.toNat ≤ 4 := band_le_of_bandImage1 h
  have hbit := getLsbD_of_bandImage1 h
  refine ⟨?bit4, ?oneBandBit, ?oneDirBit⟩
  case bit4 =>
    rw [← Bool.not_eq_true, hbit]
    omega
  case oneBandBit =>
    intro m n hm hn hbm hbn
    rw [hbit] at hbm hbn
    omega
  case oneDirBit =>
    intro m n hm hn hbm hbn
    rw [hbit] at hbm hbn
    omega

end Sys2Proof.Machine
end

section
/-! PROOFS. The strength bar and the volume byte (41_alert.md R108 to R110). -/

namespace Sys2Proof.Machine

open Sys2Proof

theorem bar_of_le {strength : BitVec 4} (h : strength.toNat ≤ 8) :
    bar strength = some (BitVec.ofNat 8 (2 ^ strength.toNat - 1)) := by
  have hle : strength ≤ maxStrength := h
  rw [bar, if_pos hle, Nat.one_shiftLeft]

theorem barBits_toNat {strength : BitVec 4} (h : strength.toNat ≤ 8) :
    (BitVec.ofNat 8 (2 ^ strength.toNat - 1)).toNat = 2 ^ strength.toNat - 1 := by
  have hpow : 2 ^ strength.toNat ≤ 2 ^ 8 := Nat.pow_le_pow_right (by decide) h
  rw [BitVec.toNat_ofNat, Nat.mod_eq_of_lt (by omega)]

/-- Settles O32: `2 ^ s - 1` has the bits below `s`. -/
theorem strengthBarIsARun : Obligations.StrengthBarIsARun := by
  intro s
  refine ⟨fun hle => ⟨_, bar_of_le hle, barBits_toNat hle, fun n _ => ?_⟩, fun hlt => ?_⟩
  · rw [← BitVec.testBit_toNat, barBits_toNat hle, Nat.testBit_two_pow_sub_one, decide_eq_true_eq]
  · have hnle : ¬ s ≤ maxStrength := Nat.not_le_of_lt hlt
    exact if_neg hnle

/-- The main volume masked is a nibble, moved to the high half. -/
theorem toNat_highNibble (v : Byte) : ((v &&& 0x0F) <<< 4).toNat = v.toNat % 16 * 2 ^ 4 := by
  have hmask : (v &&& 0x0F).toNat = v.toNat % 16 := Nat.and_two_pow_sub_one_eq_mod v.toNat 4
  rw [BitVec.toNat_shiftLeft, hmask, Nat.shiftLeft_eq]
  omega

/-- Settles O33: two nibbles side by side. -/
theorem volumeNibbles : Obligations.VolumeNibbles := by
  intro mainVol muteVol
  calc (volumeByte mainVol muteVol).toNat
      = mainVol.toNat % 16 * 2 ^ 4 ||| (muteVol.toNat &&& 0xF) := by
        rw [volumeByte, BitVec.toNat_or, toNat_highNibble]
        rfl
    _ = mainVol.toNat % 16 * 2 ^ 4 + muteVol.toNat % 2 ^ 4 := or_nibble ..
    _ = 16 * (mainVol.toNat % 16) + muteVol.toNat % 16 := by omega

end Sys2Proof.Machine
end

section
/-! PROOFS. The eight bytes of the alert payload, its packet, and what blinking changes (41_alert.md R112 to R114). -/

namespace Sys2Proof.Machine

open Sys2Proof

/-- Settles O34: each byte by the lemma of its image. -/
theorem alertPayloadLayout : Obligations.AlertPayloadLayout := by
  intro sel hband hstrength hasOne d1 b1
  obtain ⟨p, hp, -⟩ := alertPayload_of_inRange hband hstrength
  obtain ⟨image1, strengthBar, himage, hbar, rfl⟩ := alertPayload_eq_some hp
  have hd1 : (digitImage1 sel.digitValid sel.digit).toNat = d1 := digitImage1_toNat ..
  have hd2 : (digitImage2 sel.blink sel.digitValid sel.digit).toNat =
      if sel.blink = true ∧ hasOne then 0 else d1 := by
    rw [digitImage2, apply_ite BitVec.toNat, hd1]
    simp only [Bool.and_eq_true, hasDigit_iff]
    rfl
  have hstr : strengthBar.toNat = 2 ^ sel.strength.toNat - 1 := by
    rw [← Option.some.inj ((bar_of_le hstrength).symm.trans hbar), barBits_toNat hstrength]
  have hb1 : image1.toNat = b1 := toNat_of_bandImage1 himage
  have hb2 : (bandImage2 sel.blink image1).toNat = if sel.blink = true then 0 else b1 := by
    rw [bandImage2, apply_ite BitVec.toNat, hb1]
    rfl
  rw [hp, Option.map_some]
  simp only [List.map_cons, List.map_nil, hd1, hd2, hstr, hb1, hb2, volumeNibbles sel.mainVol sel.muteVol]
  rfl

/-- The header of an alert packet sums to `0x2A6` (41_alert.md R113). -/
theorem packetChecksum_of_length_eight {p : List Byte} (h : p.length = 8) :
    packetChecksum 0x08 0x0A 0x31 p = BitVec.ofNat 8 ((0xA6 + sumBytes p) % 256) := by
  have hheader : sumBytes (packetHeader 0x08 0x0A 0x31 8) = 0x2A6 := by decide
  rw [packetChecksum, h, hheader]
  congr 1
  omega

/-- A payload exists exactly in range (41_alert.md R112). -/
theorem exists_alertPayload_iff (sel : Selection) :
    (∃ p, alertPayload sel = some p) ↔ sel.band ≤ 4#4 ∧ sel.strength ≤ 8#4 := by
  constructor
  · rintro ⟨p, hp⟩
    exact (check_alert_eq_zero_iff sel).1 (check_alert_of_payload hp)
  · rintro ⟨hband, hstrength⟩
    obtain ⟨p, hp, -⟩ := alertPayload_of_inRange hband hstrength
    exact ⟨p, hp⟩

/-- Settles O35: the packet is `Frame` of a payload of eight bytes. -/
theorem alertPacketShape : Obligations.AlertPacketShape := by
  refine fun sel => ⟨exists_alertPayload_iff sel, fun p hp => ?_⟩
  have hlen : p.length = 8 := length_of_alertPayload hp
  have hpacket := alertPacket_of_payload hp
  refine ⟨hpacket, hlen, ?_, ?_, ?_⟩
  · obtain ⟨_, _, _, _, rfl⟩ := alertPayload_eq_some hp
    rfl
  · obtain ⟨_, _, _, _, rfl⟩ := alertPayload_eq_some hp
    rfl
  · rw [hpacket, frame_of_length_le _ _ _ (hlen.trans_le (by decide)), hlen, packetHeader_alert,
      packetChecksum_of_length_eight hlen]
    rfl

/-- Settles O36: both payloads come from the same two images and the same bar, and only the second images read the
flag. -/
theorem blinkChangesImage2Only : Obligations.BlinkChangesImage2Only := by
  intro sel p q hp hq
  obtain ⟨image1, strengthBar, himage, hbar, rfl⟩ := alertPayload_eq_some hp
  obtain ⟨image1', strengthBar', himage', hbar', rfl⟩ := alertPayload_eq_some hq
  obtain rfl : image1 = image1' := Option.some.inj (himage.symm.trans himage')
  obtain rfl : strengthBar = strengthBar' := Option.some.inj (hbar.symm.trans hbar')
  simp [digitImage2_eq_ite, bandImage2]

end Sys2Proof.Machine
end

section
/-! PROOFS. The packet that effective operands spell, and the byte and the read of each EMIT-BYTE step of it
(42_sequencer.md R134, R135). -/

namespace Sys2Proof.Machine

open Sys2Proof

/-- The payload bytes `P(i)`, when the payload port answers `v`. -/
def Operands.payloadOf (o : Operands) (v : List Byte) : List Byte :=
  match o.payload with
  | .port => v
  | .fixed p => p
  | .unstated => []

/-- The bytes under the checksum: header and payload. -/
def Operands.body (o : Operands) (v : List Byte) : List Byte := headerBytes o ++ o.payloadOf v

/-- The bytes of the packet with `sum` at the checksum's index. -/
def Operands.bytes (o : Operands) (v : List Byte) (sum : Byte) : List Byte := o.body v ++ [sum, eof]

/-- The packet, its checksum being the sum of the bytes before it (40_frame.md R84). -/
def Operands.packet (o : Operands) (v : List Byte) : List Byte := o.bytes v (BitVec.ofNat 8 (sumBytes (o.body v)))

/-- The answers `v` supply the operands: they are the `L` payload bytes of a port, or nothing is read and the `L`
payload bytes are fixed. -/
structure Operands.Supplied (o : Operands) (v : List Byte) : Prop where
  short : o.len ≤ 254
  length : (o.payloadOf v).length = o.len
  source : o.payload = .port ∨ o.payload = .fixed (o.payloadOf v) ∧ v = []

theorem Operands.payloadOf_port {o : Operands} (h : o.payload = .port) (v : List Byte) : o.payloadOf v = v := by
  rw [Operands.payloadOf, h]

theorem Operands.payloadOf_fixed {o : Operands} {p : List Byte} (h : o.payload = .fixed p) (v : List Byte) :
    o.payloadOf v = p := by
  rw [Operands.payloadOf, h]

theorem frameOperands_supplied (dest src msg : Byte) {plen : Byte} {v : List Byte} (hplen : plen.toNat ≤ 254)
    (hv : v.length = plen.toNat) : (frameOperands dest src msg plen).Supplied v :=
  ⟨hplen, hv, .inl rfl⟩

theorem alertOperands_payloadOf {sel : Selection} {p : List Byte} (h : alertPayload sel = some p) (v : List Byte) :
    (alertOperands sel).payloadOf v = p :=
  Operands.payloadOf_fixed (by simp [alertOperands, h]) v

theorem alertOperands_supplied {sel : Selection} {p : List Byte} (h : alertPayload sel = some p) :
    (alertOperands sel).Supplied [] := by
  have hp := alertOperands_payloadOf h []
  refine ⟨by simp [alertOperands], ?_, .inr ⟨?_, rfl⟩⟩
  · rw [hp, length_of_alertPayload h]
    rfl
  · rw [hp]
    simp [alertOperands, h]

@[simp] theorem length_headerBytes (o : Operands) : (headerBytes o).length = 5 := rfl

theorem Operands.getD_bytes_header (o : Operands) (v : List Byte) (sum : Byte) {k : Nat} (hk : k < 5) :
    (o.bytes v sum).getD k 0 = (headerBytes o).getD k 0 := by
  rw [Operands.bytes, Operands.body, List.append_assoc, List.getD_append _ _ _ _ (by simpa using hk)]

theorem Operands.getD_bytes_payload (o : Operands) (v : List Byte) (sum : Byte) {k : Nat} (h5 : 5 ≤ k)
    (hk : k - 5 < (o.payloadOf v).length) : (o.bytes v sum).getD k 0 = (o.payloadOf v)[k - 5] := by
  rw [Operands.bytes, Operands.body, List.getD_append _ _ _ _ (by simp; omega),
    List.getD_append_right _ _ _ _ (by simpa using h5), length_headerBytes, List.getD_eq_getElem _ _ hk]

/-- The header at step level is the one of `Frame` (40_frame.md R80). -/
theorem headerBytes_eq_packetHeader (o : Operands) :
    headerBytes o = packetHeader o.dest.toNat o.src.toNat o.msg.toNat o.len := by
  simp [headerBytes, packetHeader, BitVec.ofNat_or, BitVec.ofNat_and, and_byteOnes, destByte, destHi, srcByte, srcHi]

namespace Operands.Supplied

variable {o : Operands} {v : List Byte} (h : o.Supplied v)

include h

theorem length_body : (o.body v).length = o.len + 5 := by
  simp [Operands.body, h.length, Nat.add_comm]

theorem length_bytes (sum : Byte) : (o.bytes v sum).length = o.len + 7 := by
  simp [Operands.bytes, h.length_body]

theorem length_packet : (o.packet v).length = o.len + 7 := h.length_bytes _

theorem getD_bytes_sum (sum : Byte) : (o.bytes v sum).getD (5 + o.len) 0 = sum := by
  have hindex : 5 + o.len - (o.body v).length = 0 := by rw [h.length_body]; omega
  rw [Operands.bytes, List.getD_append_right _ _ _ _ (by rw [h.length_body]; omega), hindex]
  rfl

theorem getD_bytes_eof (sum : Byte) : (o.bytes v sum).getD (6 + o.len) 0 = eof := by
  have hindex : 6 + o.len - (o.body v).length = 1 := by rw [h.length_body]; omega
  rw [Operands.bytes, List.getD_append_right _ _ _ _ (by rw [h.length_body]; omega), hindex]
  rfl

/-- No more is read than the payload. -/
theorem length_le : v.length ≤ o.len := by
  rcases h.source with hport | ⟨-, rfl⟩
  · exact (o.payloadOf_port hport v ▸ h.length).le
  · exact Nat.zero_le _

/-- Where a byte is read, the payload comes from the port. -/
theorem payload_port {i : Nat} (hi : i < v.length) : o.payload = .port :=
  h.source.resolve_right fun ⟨_, hv⟩ => by simp [hv] at hi

/-- A byte that is read stands in the packet as answered. -/
theorem getD_bytes_read (sum : Byte) {k : Nat} (h5 : 5 ≤ k) (hk : k - 5 < v.length) :
    (o.bytes v sum).getD k 0 = v[k - 5] := by
  have hpayload := o.payloadOf_port (h.payload_port hk) v
  rw [o.getD_bytes_payload v sum h5 (by rwa [hpayload])]
  simp only [hpayload]

/-- The packet of the operands is `Frame` of their payload. -/
theorem frame_eq_packet :
    frame o.dest.toNat o.src.toNat o.msg.toNat (o.payloadOf v) = some (o.packet v) := by
  have hsum : packetChecksum o.dest.toNat o.src.toNat o.msg.toNat (o.payloadOf v) =
      BitVec.ofNat 8 (sumBytes (o.body v)) := by
    apply BitVec.eq_of_toNat_eq
    rw [packetChecksum_toNat, h.length, ← headerBytes_eq_packetHeader, BitVec.toNat_ofNat, Operands.body]
  rw [frame_of_length_le _ _ _ (h.length.trans_le h.short), h.length, ← headerBytes_eq_packetHeader, hsum]
  rfl

/-- The slot at each index: a read at address `k - 5` while the port has a payload byte to give, and else the byte of
the packet there, with the checksum register at the checksum's index. -/
theorem packetSlot_eq (sum : Byte) {k : Nat} (hk : k ≤ o.len + 6) :
    packetSlot o sum k = if 5 ≤ k ∧ k ≤ 4 + v.length then .read (BitVec.ofNat 8 (k - 5))
      else .value ((o.bytes v sum).getD k 0) := by
  have hlen := h.length
  have hle := h.length_le
  have hshort := h.short
  obtain hlt | ⟨h5, hk4⟩ | rfl | rfl :
    k < 5 ∨ (5 ≤ k ∧ k ≤ 4 + o.len) ∨ k = 5 + o.len ∨ k = 6 + o.len := by omega
  · rw [if_neg (by omega), packetSlot_header h.short sum hlt, o.getD_bytes_header v sum hlt]
  · rw [packetSlot_payload o sum h5 hk4]
    rcases h.source with hport | ⟨hfixed, rfl⟩
    · rw [o.payloadOf_port hport] at hlen
      rw [hport, payloadSlot_port (by omega), if_pos (by omega)]
    · have hlt : k - 5 < (o.payloadOf []).length := by omega
      rw [hfixed, payloadSlot_fixed (List.getElem?_eq_getElem hlt), if_neg (by simp; omega),
        o.getD_bytes_payload [] sum h5 hlt]
  · rw [packetSlot_sum, if_neg (by omega), h.getD_bytes_sum]
  · rw [packetSlot_eof, if_neg (by omega), h.getD_bytes_eof]

end Operands.Supplied

/-- The payload byte that `v` has for the index at hand, if it has one there, is what the payload space holds. -/
def AnswersNext (s : State) (v : List Byte) : Prop :=
  ∀ i (hi : i < v.length), s.block.idx.toNat = 5 + i → Memory.read s.host.payload i = v[i]

/-- The byte of the packet at `idx`. -/
def nextByte (o : Operands) (v : List Byte) (s : State) : Byte := (o.bytes v s.block.sum).getD s.block.idx.toNat 0

/-- The read of a packet beat at index `k` that sends `b`, out of a payload of `n` bytes at the port. -/
def nextReads (n k : Nat) (b : Byte) : List Event :=
  if 5 ≤ k ∧ k ≤ 4 + n then [.read (BitVec.ofNat 8 (k - 5)) b] else []

/-- What `sum` holds after the packet beat at `idx`. -/
def nextSum (o : Operands) (v : List Byte) (s : State) : Byte :=
  if s.block.idx.toNat ≤ 4 + o.len then s.block.sum + nextByte o v s else s.block.sum

/-- What the packet beat at `idx` shows: its read, if the byte comes from the port, and the beat. -/
def nextEvents (o : Operands) (v : List Byte) (s : State) : List Event :=
  nextReads v.length s.block.idx.toNat (nextByte o v s) ++
    [.beat { fault := false, data := nextByte o v s, last := decide (s.block.idx.toNat = o.len + 6) }]

/-- The slot at hand yields the packet's byte, and draws no free value. -/
theorem Operands.Supplied.currentSlot_eq {o : Operands} {v : List Byte} (h : o.Supplied v) {s : State}
    (hk : s.block.idx.toNat ≤ o.len + 6) (hans : AnswersNext s v) :
    slotByte s (currentSlot o s) = nextByte o v s ∧
      slotReads s (currentSlot o s) = nextReads v.length s.block.idx.toNat (nextByte o v s) ∧
      slotDraws (currentSlot o s) = 0 := by
  rw [currentSlot, h.packetSlot_eq _ hk, nextReads]
  split_ifs with hread
  · obtain ⟨h5, hlt⟩ := hread
    have hi : s.block.idx.toNat - 5 < v.length := by omega
    have haddr : (BitVec.ofNat 8 (s.block.idx.toNat - 5)).toNat = s.block.idx.toNat - 5 := by
      have := h.length_le
      have := h.short
      rw [BitVec.toNat_ofNat, Nat.mod_eq_of_lt (by omega)]
    have hbyte : Memory.read s.host.payload (s.block.idx.toNat - 5) = nextByte o v s := by
      rw [hans _ hi (by omega), nextByte, h.getD_bytes_read _ h5 hi]
    simp only [slotByte, slotReads, slotDraws, haddr, hbyte, and_self]
  · exact ⟨rfl, rfl, rfl⟩

/-- EMIT-BYTE of supplied operands: the byte of the packet at `idx` is sent, and read if the port gives it; no free
value is drawn. -/
theorem Operands.Supplied.emitByte_eq_next {o : Operands} {v : List Byte} (h : o.Supplied v) {s : State}
    (hk : s.block.idx.toNat ≤ o.len + 6) (hans : AnswersNext s v) :
    emitByte o s = { s with
      block := { busy := s.block.busy && decide (s.block.idx.toNat ≠ o.len + 6), rq := s.block.rq,
                 idx := s.block.idx + 1, sum := nextSum o v s, fcode := s.block.fcode }
      trace := s.trace ++ nextEvents o v s } := by
  obtain ⟨hbyte, hreads, hdraws⟩ := h.currentSlot_eq hk hans
  have hlast : isLast o s.block.idx.toNat = decide (s.block.idx.toNat = o.len + 6) :=
    Bool.eq_iff_iff.2 (by rw [isLast_iff, decide_eq_true_iff])
  have hnext : nextIdx s = s.block.idx + 1 := nextIdx_of_ne fun e => by
    have := h.short
    simp only [e, BitVec.toNat_ofNat] at hk
    omega
  rw [emitByte_eq, hbyte, hreads, hdraws, hlast, hnext, nextEvents, nextSum]
  by_cases hend : s.block.idx.toNat = o.len + 6 <;> simp [hend]

end Sys2Proof.Machine
end

section
/-! PROOFS. The response to a request that passes `Check`, beat by beat (42_sequencer.md R137, R138). -/

namespace Sys2Proof.Machine

open Sys2Proof

/-- A request that passes `Check` is answered by the packet of its effective operands. -/
theorem response_eq_packetBeats {r : Word} {v : List Byte} (hcheck : check r = 0) (hv : v.length = payloadReads r) :
    (operandsOf r).Supplied v ∧ response r v = packetBeats ((operandsOf r).packet v) := by
  rcases decodeWord_of_check hcheck with ⟨dest, src, msg, plen, hr, hlen⟩ | ⟨sel, hr, hband, hstrength⟩
  · have hplen : v.length = plen.toNat := by simpa [payloadReads, hcheck, hr] using hv
    have hsup := frameOperands_supplied dest src msg hlen hplen
    rw [operandsOf_frame hr]
    refine ⟨hsup, response_of_packetOf hcheck ?_⟩
    rw [packetOf, if_neg (by simp [hcheck]), hr]
    exact hsup.frame_eq_packet
  · obtain rfl : v = [] := by simpa [payloadReads, hcheck, hr] using hv
    obtain ⟨p, hp, -⟩ := alertPayload_of_inRange hband hstrength
    have hsup := alertOperands_supplied hp
    rw [operandsOf_alert hr]
    refine ⟨hsup, response_of_packetOf hcheck ?_⟩
    rw [packetOf, if_neg (by simp [hcheck]), hr]
    exact (alertPacket_of_payload hp).trans (alertOperands_payloadOf hp [] ▸ hsup.frame_eq_packet)

/-- A request that faults is answered by its one fault beat. -/
theorem response_of_fault {r : Word} (hcheck : check r ≠ 0) (v : List Byte) :
    response r v = [{ fault := true, data := (check r).setWidth 8, last := true }] := if_pos hcheck

theorem getElem?_packetBeats (pkt : List Byte) (k : Nat) :
    (packetBeats pkt)[k]? =
      pkt[k]?.map fun b => { fault := false, data := b, last := decide (k + 1 = pkt.length) } := by
  induction pkt using packetBeats.induct generalizing k with
  | case1 => rfl
  | case2 b => cases k <;> simp [packetBeats]
  | case3 b c rest ih =>
    cases k with
    | zero => simp [packetBeats]
    | succ k => simpa [packetBeats] using ih k

@[simp] theorem length_packetBeats (pkt : List Byte) : (packetBeats pkt).length = pkt.length := by
  rw [← congrArg List.length (map_data_packetBeats pkt), List.length_map]

/-- The beats sent so far show the bytes sent so far and how many are to come. -/
theorem take_packetBeats_congr {pkt pkt' : List Byte} {k : Nat} (hlen : pkt'.length = pkt.length)
    (htake : pkt'.take k = pkt.take k) : (packetBeats pkt').take k = (packetBeats pkt).take k := by
  apply List.ext_getElem?
  intro i
  rw [List.getElem?_take, List.getElem?_take, getElem?_packetBeats, getElem?_packetBeats, hlen]
  split_ifs with hi
  · rw [← List.getElem?_take_of_lt hi, htake, List.getElem?_take_of_lt hi]
  · rfl

/-- The events `es` show the beats of the packet below index `k` and the reads of the payload bytes among them, and `sum`
is the sum of those beats up to index `4 + L`. -/
structure SentUpTo (o : Operands) (v : List Byte) (k : Nat) (sum : Byte) (es : List Event) : Prop where
  beats : beatsOf es = (packetBeats (o.packet v)).take k
  reads : readsOf es = v.zipIdx.take (k - 5)
  sum : sum.toNat = sumBytes ((o.body v).take k) % 256

namespace SentUpTo

variable {o : Operands} {v : List Byte} {es : List Event}

/-- At index `L + 7` all has been sent. -/
theorem complete {k : Nat} {sum : Byte} (h : SentUpTo o v k sum es) (hsup : o.Supplied v) (hk : k = o.len + 7) :
    beatsOf es = packetBeats (o.packet v) ∧ readsOf es = v.zipIdx := by
  have hle := hsup.length_le
  rw [h.beats, h.reads, List.take_of_length_le (by simp [hsup.length_packet, hk]),
    List.take_of_length_le (by simp; omega)]
  exact ⟨rfl, rfl⟩

/-- What has been sent does not depend on the payload bytes still to be read. -/
theorem congr {v' : List Byte} {k : Nat} {sum : Byte} (h : SentUpTo o v k sum es) (hport : o.payload = .port)
    (hlen : v'.length = v.length) (htake : v'.take (k - 5) = v.take (k - 5)) (hk : k ≤ 4 + v.length) :
    SentUpTo o v' k sum es := by
  obtain ⟨hbeats, hreads, hsum⟩ := h
  have hbodyLen : ∀ w, (o.body w).length = 5 + w.length := fun w => by simp [Operands.body, o.payloadOf_port hport]
  have hbody : (o.body v').take k = (o.body v).take k := by
    rw [Operands.body, Operands.body, o.payloadOf_port hport, o.payloadOf_port hport, List.take_append,
      List.take_append, length_headerBytes, htake]
  have hpacket : (o.packet v').take k = (o.packet v).take k := by
    rw [Operands.packet, Operands.packet, Operands.bytes, Operands.bytes,
      List.take_append_of_le_length (by rw [hbodyLen]; omega), List.take_append_of_le_length (by rw [hbodyLen]; omega),
      hbody]
  have hlength : (o.packet v').length = (o.packet v).length := by
    simp [Operands.packet, Operands.bytes, hbodyLen, hlen]
  refine ⟨?_, ?_, ?_⟩
  · rw [hbeats, take_packetBeats_congr hlength hpacket]
  · rw [hreads, List.zipIdx_eq_zip_range', List.zipIdx_eq_zip_range', List.zip_eq_zipWith, List.zip_eq_zipWith,
      List.take_zipWith, List.take_zipWith, htake, hlen]
  · rw [hsum, hbody]

end SentUpTo

/-- With `sum` right, the byte at `idx` is the packet's. -/
theorem Operands.Supplied.packet_getElem? {o : Operands} {v : List Byte} (h : o.Supplied v) {s : State}
    (hk : s.block.idx.toNat ≤ o.len + 6)
    (hsum : s.block.sum.toNat = sumBytes ((o.body v).take s.block.idx.toNat) % 256) :
    (o.packet v)[s.block.idx.toNat]? = some (nextByte o v s) := by
  have hlength := h.length_body
  have hsame : (o.packet v)[s.block.idx.toNat]? = (o.bytes v s.block.sum)[s.block.idx.toNat]? := by
    by_cases hlt : s.block.idx.toNat < o.len + 5
    · rw [Operands.packet, Operands.bytes, Operands.bytes, List.getElem?_append_left (by omega),
        List.getElem?_append_left (by omega)]
    · rw [List.take_of_length_le (by omega)] at hsum
      have hreg : s.block.sum = BitVec.ofNat 8 (sumBytes (o.body v)) :=
        BitVec.eq_of_toNat_eq (by rw [hsum, BitVec.toNat_ofNat])
      rw [Operands.packet, hreg]
  rw [hsame, nextByte, List.getD_eq_getElem _ _ (by rw [h.length_bytes]; omega), List.getElem?_eq_getElem]

end Sys2Proof.Machine
end

section
/-! PROOFS. One packet beat of an operation in flight (42_sequencer.md R134, R137). -/

namespace Sys2Proof.Machine

open Sys2Proof

@[simp] theorem readsOf_read (a : BitVec 8) (v : Byte) : readsOf [.read a v] = [(v, a.toNat)] := rfl

theorem readsOf_nextReads (n k : Nat) (b : Byte) (hn : n ≤ 254) :
    readsOf (nextReads n k b) = if 5 ≤ k ∧ k ≤ 4 + n then [(b, k - 5)] else [] := by
  unfold nextReads
  split_ifs with hk
  · have haddr : (BitVec.ofNat 8 (k - 5)).toNat = k - 5 := by rw [BitVec.toNat_ofNat, Nat.mod_eq_of_lt (by omega)]
    rw [readsOf_read, haddr]
  · rfl

@[simp] theorem beatsOf_nextReads (n k : Nat) (b : Byte) : beatsOf (nextReads n k b) = [] := by
  unfold nextReads
  split_ifs <;> rfl

/-- The reads grow by the payload byte at index `k`, if there is one. -/
theorem take_zipIdx_next {v : List Byte} {k : Nat} {b : Byte}
    (hb : 5 ≤ k → ∀ hk : k - 5 < v.length, b = v[k - 5]) :
    v.zipIdx.take (k + 1 - 5) =
      v.zipIdx.take (k - 5) ++ if 5 ≤ k ∧ k ≤ 4 + v.length then [(b, k - 5)] else [] := by
  split_ifs with hread
  · obtain ⟨h5, hlt⟩ := hread
    have hi : k - 5 < v.length := by omega
    rw [show k + 1 - 5 = k - 5 + 1 by omega, List.take_add_one, List.getElem?_zipIdx, List.getElem?_eq_getElem hi,
      hb h5 hi]
    simp
  · rw [List.append_nil]
    by_cases h5 : 5 ≤ k
    · rw [List.take_of_length_le (by simp; omega), List.take_of_length_le (by simp; omega)]
    · rw [show k + 1 - 5 = k - 5 by omega]

/-- A packet beat takes what has been sent one index further. -/
theorem SentUpTo.next {o : Operands} {v : List Byte} {s : State} {es : List Event}
    (h : SentUpTo o v s.block.idx.toNat s.block.sum es) (hsup : o.Supplied v) (hk : s.block.idx.toNat ≤ o.len + 6) :
    SentUpTo o v (s.block.idx.toNat + 1) (nextSum o v s) (es ++ nextEvents o v s) := by
  obtain ⟨hbeats, hreads, hsum⟩ := h
  have hbyte := hsup.packet_getElem? hk hsum
  have hshort := hsup.length_le.trans hsup.short
  refine ⟨?_, ?_, ?_⟩
  · have hlast : (s.block.idx.toNat + 1 = (o.packet v).length) = (s.block.idx.toNat = o.len + 6) := by
      rw [hsup.length_packet, eq_iff_iff]
      omega
    rw [List.take_add_one, getElem?_packetBeats, hbyte, beatsOf_append, nextEvents, beatsOf_append,
      beatsOf_nextReads, hbeats]
    simp only [hlast]
    rfl
  · rw [take_zipIdx_next fun h5 hlt => hsup.getD_bytes_read _ h5 hlt, readsOf_append, nextEvents, readsOf_append,
      readsOf_nextReads _ _ _ hshort, hreads, readsOf_beat, List.append_nil]
    rfl
  · have hlength := hsup.length_body
    rw [nextSum]
    split_ifs with hle
    · have hlt : s.block.idx.toNat < (o.body v).length := by omega
      rw [Operands.packet, Operands.bytes, List.getElem?_append_left hlt] at hbyte
      rw [List.take_add_one, hbyte, BitVec.toNat_add, hsum, sumBytes_append]
      simp [sumBytes]
    · rw [hsum, List.take_of_length_le (by omega), List.take_of_length_le (by omega)]

/-- What the trace shows of an operation that has ended: its whole response, over payload bytes `v` read once each in
ascending order (42_sequencer.md R138). -/
structure ClosesResponse (r : Word) (v : List Byte) (es : List Event) : Prop where
  length : v.length = payloadReads r
  beats : beatsOf es = response r v
  reads : readsOf es = v.zipIdx

/-- `inFlightAfter` of a request that passes `Check`, on the packet of its operands. -/
theorem inFlightAfter_iff {b : Block} {es : List Event} {v : List Byte} (hf : b.fcode = 0) (hcheck : check b.rq = 0) :
    inFlightAfter b es v ↔ v.length = payloadReads b.rq ∧ b.idx.toNat ≤ (operandsOf b.rq).len + 6 ∧
      SentUpTo (operandsOf b.rq) v b.idx.toNat b.sum es := by
  rw [inFlightAfter, if_pos hf]
  refine and_congr_right fun hv => ?_
  obtain ⟨hsup, hresp⟩ := response_eq_packetBeats hcheck hv
  have htake : ((packetBeats ((operandsOf b.rq).packet v)).take
      (min b.idx.toNat ((packetBeats ((operandsOf b.rq).packet v)).length - 2))).map (·.data) =
      ((operandsOf b.rq).body v).take b.idx.toNat := by
    rw [List.map_take, map_data_packetBeats, length_packetBeats, hsup.length_packet, ← List.take_take,
      show (operandsOf b.rq).len + 7 - 2 = (operandsOf b.rq).len + 5 from rfl, Operands.packet, Operands.bytes,
      List.take_left' hsup.length_body]
  rw [hresp, htake, length_packetBeats, hsup.length_packet]
  exact ⟨fun ⟨hk, hbeats, hreads, hsum⟩ => ⟨by omega, hbeats, hreads, hsum⟩,
    fun ⟨hk, hbeats, hreads, hsum⟩ => ⟨by omega, hbeats, hreads, hsum⟩⟩

theorem inFlightAfter_iff_of_fault {b : Block} {es : List Event} {v : List Byte} (hf : b.fcode ≠ 0) :
    inFlightAfter b es v ↔ es = [] := by
  rw [inFlightAfter, if_neg hf]

/-- A packet beat of an operation in flight, answered as `v` says: the operation goes on one index further, or that was
its last beat and its response is closed. -/
theorem emitByte_of_inFlight {s : State} {es : List Event} {v : List Byte} (hbusy : s.block.busy = true)
    (hf : s.block.fcode = 0) (hcode : s.block.fcode = check s.block.rq) (hflight : inFlightAfter s.block es v)
    (hans : AnswersNext s v) :
    ∃ t fs, emitByte (operandsOf s.block.rq) s = t ∧ t.trace = s.trace ++ fs ∧
      (t.block.busy = true ∧ inFlightAfter t.block (es ++ fs) v ∧ t.block.idx.toNat = s.block.idx.toNat + 1 ∨
        t.block.busy = false ∧ ClosesResponse s.block.rq v (es ++ fs) ∧
          s.block.idx.toNat + 1 = (response s.block.rq v).length) := by
  have hcheck : check s.block.rq = 0 := hcode.symm.trans hf
  obtain ⟨hv, hk, hsent⟩ := (inFlightAfter_iff hf hcheck).1 hflight
  obtain ⟨hsup, hresp⟩ := response_eq_packetBeats hcheck hv
  have hsent' := hsent.next hsup hk
  refine ⟨_, _, hsup.emitByte_eq_next hk hans, rfl, ?_⟩
  by_cases hlast : s.block.idx.toNat = (operandsOf s.block.rq).len + 6
  · refine .inr ⟨by simp [hlast], ?_, by rw [hresp, length_packetBeats, hsup.length_packet]; omega⟩
    obtain ⟨hbeats, hreads⟩ := hsent'.complete hsup (by omega)
    exact ⟨hv, hbeats.trans hresp.symm, hreads⟩
  · have hidx : (s.block.idx + 1).toNat = s.block.idx.toNat + 1 := by
      have hshort := hsup.short
      exact BitVec.toNat_add_of_lt (show s.block.idx.toNat + 1 < 512 by omega)
    refine .inl ⟨by simp [hbusy, hlast], (inFlightAfter_iff ?_ ?_).2 ⟨hv, ?_, ?_⟩, hidx⟩
    · exact hf
    · exact hcheck
    · simp only [hidx]
      omega
    · simp only [hidx]
      exact hsent'

/-- The payload byte at hand may be any: what has been sent is as well the start of the response over the byte that
the payload space gives now. -/
theorem exists_answersNext {s : State} {es : List Event} {v : List Byte} (hf : s.block.fcode = 0)
    (hcode : s.block.fcode = check s.block.rq) (hflight : inFlightAfter s.block es v) :
    ∃ w, inFlightAfter s.block es w ∧ AnswersNext s w := by
  have hcheck : check s.block.rq = 0 := hcode.symm.trans hf
  obtain ⟨hv, hk, hsent⟩ := (inFlightAfter_iff hf hcheck).1 hflight
  obtain ⟨hsup, -⟩ := response_eq_packetBeats hcheck hv
  by_cases hread : ∃ i < v.length, s.block.idx.toNat = 5 + i
  · obtain ⟨i, hi, hidx⟩ := hread
    refine ⟨v.set i (Memory.read s.host.payload i), (inFlightAfter_iff hf hcheck).2 ⟨by simpa using hv, hk, ?_⟩, ?_⟩
    · exact hsent.congr (hsup.payload_port hi) (by simp) (List.take_set_of_le (by omega)) (by omega)
    · intro j hj hjdx
      obtain rfl : i = j := by omega
      simp
  · exact ⟨v, hflight, fun i hi hidx => absurd ⟨i, hi, hidx⟩ hread⟩

/-- ACCEPT starts an operation with nothing sent. -/
theorem accept_inFlightAfter (r : Word) (s : State) {v : List Byte} (hv : v.length = payloadReads r) :
    inFlightAfter (accept r s).block [] v := by
  by_cases hcheck : check r = 0
  · exact (inFlightAfter_iff (b := (accept r s).block) hcheck hcheck).2
      ⟨hv, Nat.zero_le _, rfl, rfl, rfl⟩
  · exact (inFlightAfter_iff_of_fault hcheck).2 rfl

/-- The fault beat is the whole response to a request that faults. -/
theorem emitFault_closes {s : State} {es : List Event} {v : List Byte} (hf : s.block.fcode ≠ 0)
    (hcode : s.block.fcode = check s.block.rq) (hflight : inFlightAfter s.block es v) :
    ClosesResponse s.block.rq []
      (es ++ [.beat { fault := true, data := s.block.fcode.setWidth 8, last := true }]) := by
  have hcheck : check s.block.rq ≠ 0 := hcode ▸ hf
  obtain rfl : es = [] := (inFlightAfter_iff_of_fault hf).1 hflight
  exact ⟨(if_pos hcheck).symm, by rw [response_of_fault hcheck, hcode]; rfl, rfl⟩

end Sys2Proof.Machine
end

section
/-! PROOFS. The invariant of the operation in flight, and the response it ends with (42_sequencer.md R137, R138). -/

namespace Sys2Proof.Machine

open Sys2Proof

/-- A step that answers `t` is the host's move, or the block's turn as `BlockStep` says. -/
theorem cases_of_step {s t : State} (h : step s = .next t) :
    (∃ m ts, s.host.turns = .host m :: ts ∧ t = hostMove m (turnTaken s)) ∨
      isBlockTurn s = true ∧ BlockStep (turnTaken s) t := by
  rcases step_cases s with ⟨m, ts, hts, hmove, _⟩ | ⟨hturn, t', ht', hs⟩
  · exact .inl ⟨m, ts, hts, Host.Outcome.next.inj (h.symm.trans hmove)⟩
  · obtain rfl := Host.Outcome.next.inj (ht'.symm.trans h)
    exact .inr ⟨hturn, hs⟩

theorem blockStep_of_step {s t : State} (hturn : isBlockTurn s = true) (h : step s = .next t) :
    BlockStep (turnTaken s) t := by
  rcases cases_of_step h with ⟨m, ts, hts, _⟩ | ⟨_, hs⟩
  · simp [isBlockTurn, hts] at hturn
  · exact hs

/-- An idle block owes nothing. -/
theorem operationInv_of_idle {s : State} (h : s.block.busy = false) : OperationInv s :=
  fun hbusy => absurd hbusy (by simp [h])

/-- The invariant speaks of the block and the trace alone. -/
theorem OperationInv.of_eq {s t : State} (h : OperationInv s) (hblock : t.block = s.block)
    (htrace : t.trace = s.trace) : OperationInv t := by
  rwa [OperationInv, hblock, htrace]

theorem accept_operationInv (r : Word) (s : State) : OperationInv (accept r s) := fun _ =>
  ⟨rfl, s.trace, [], List.replicate (payloadReads r) 0, rfl, accept_inFlightAfter r s (by simp)⟩

theorem emitByte_operationInv {s : State} (h : OperationInv s) (hbusy : s.block.busy = true)
    (hf : s.block.fcode = 0) : OperationInv (emitByte (operandsOf s.block.rq) s) := by
  intro hbusy'
  obtain ⟨hcode, pre, es, v, htrace, hflight⟩ := h hbusy
  obtain ⟨w, hflight, hans⟩ := exists_answersNext hf hcode hflight
  obtain ⟨_, fs, rfl, hfs, ⟨-, hflight', -⟩ | ⟨hidle, -⟩⟩ := emitByte_of_inFlight hbusy hf hcode hflight hans
  · exact ⟨hcode, pre, es ++ fs, w, by rw [hfs, htrace, emitByte_rq, List.append_assoc, List.cons_append], hflight'⟩
  · simp [hidle] at hbusy'

theorem BlockStep.operationInv {s t : State} (h : BlockStep s t) (hinv : OperationInv s) : OperationInv t := by
  cases h with
  | reset => exact operationInv_of_idle rfl
  | stall => exact hinv
  | idle => exact hinv
  | accept _ _ r rest => exact accept_operationInv r _
  | emit _ hb _ hf => exact emitByte_operationInv hinv hb hf
  | fault => exact operationInv_of_idle rfl

/-- Settles O45: a host move changes neither block nor trace, and each step of the block keeps the invariant. -/
theorem stepKeepsOperationInv : Obligations.StepKeepsOperationInv := by
  intro s t hinv hstep
  rcases cases_of_step hstep with ⟨m, _, _, rfl⟩ | ⟨_, hs⟩
  · exact hinv.of_eq (by simp) (by simp)
  · exact hs.operationInv (hinv.of_eq rfl rfl)

/-- Settles O46: the block is idle at reset. -/
theorem resetMeetsOperationInv : Obligations.ResetMeetsOperationInv := operationInv_of_idle rfl

/-- A step other than RESET that makes a busy block idle closes the response to the latched word. -/
theorem BlockStep.closesResponse {s t : State} (h : BlockStep s t) (hinv : OperationInv s)
    (hbusy : s.block.busy = true) (hrst : s.host.rst = false) (hidle : t.block.busy = false) :
    ∃ pre es v, t.trace = pre ++ .accept s.block.rq :: es ∧ ClosesResponse s.block.rq v es := by
  obtain ⟨hcode, pre, es, v, htrace, hflight⟩ := hinv hbusy
  cases h with
  | reset hr => simp [hrst] at hr
  | stall => simp [hbusy] at hidle
  | idle _ hb => simp [hbusy] at hb
  | accept _ hb => simp [hbusy] at hb
  | emit _ _ _ hf =>
    obtain ⟨w, hflight, hans⟩ := exists_answersNext hf hcode hflight
    obtain ⟨_, fs, rfl, hfs, ⟨hbusy', -⟩ | ⟨-, hcloses, -⟩⟩ := emitByte_of_inFlight hbusy hf hcode hflight hans
    · simp [hbusy'] at hidle
    · exact ⟨pre, es ++ fs, w, by rw [hfs, htrace, List.append_assoc, List.cons_append], hcloses⟩
  | fault _ _ _ hf =>
    exact ⟨pre, _, [], by rw [emitFault_trace, htrace, List.append_assoc, List.cons_append],
      emitFault_closes hf hcode hflight⟩

/-- Settles O47: the host moves no block, and the block's own step closes the response. -/
theorem lastBeatClosesTheResponse : Obligations.LastBeatClosesTheResponse := by
  intro s t hinv hbusy hrst hstep hidle
  rcases cases_of_step hstep with ⟨m, _, _, rfl⟩ | ⟨_, hs⟩
  · simp [hbusy] at hidle
  · obtain ⟨pre, es, v, htrace, hlength, hbeats, hreads⟩ :=
      hs.closesResponse (hinv.of_eq rfl rfl) hbusy hrst hidle
    exact ⟨pre, es, v, htrace, hlength, hbeats, hreads⟩

end Sys2Proof.Machine
end

section
/-! PROOFS. The run of one operation under a host that takes every beat (42_sequencer.md R136, R138). -/

namespace Sys2Proof.Machine

open Sys2Proof

/-- The length of a response: one fault beat, fifteen bytes for an ALERT, `plen + 7` for a FRAME. -/
theorem length_response {r : Word} {v : List Byte} (hv : v.length = payloadReads r) :
    (response r v).length =
      if check r ≠ 0 then 1 else if r.toNat / 2 ^ 32 = 2 then 15 else r.toNat % 2 ^ 8 + 7 := by
  by_cases hcheck : check r = 0
  · obtain ⟨hsup, hresp⟩ := response_eq_packetBeats hcheck hv
    rw [if_neg (by simp [hcheck]), hresp, length_packetBeats, hsup.length_packet]
    rcases decodeWord_of_check hcheck with ⟨dest, src, msg, plen, hr, -⟩ | ⟨sel, hr, -⟩
    · have hnum := requestWord_frame_toNat dest src msg plen
      rw [requestWord_of_decodeWord hr] at hnum
      have hlen : (operandsOf r).len = plen.toNat := by rw [operandsOf_frame hr]; rfl
      rw [hlen, if_neg (by omega)]
      omega
    · have hop := (bits_eq_iff 32 8 r 0x02#8).1 ((decodeWord_alert_iff r).1 ⟨sel, hr⟩)
      have hlen : (operandsOf r).len = 8 := by rw [operandsOf_alert hr]; rfl
      rw [hlen, if_pos (by simp at hop; omega)]
  · rw [if_pos hcheck, response_of_fault hcheck]
    rfl

/-- A host that takes every beat and makes no move. -/
structure HostSide.Willing (h : HostSide) : Prop where
  turns : h.turns = []
  rst : h.rst = false
  ready : h.outReady = true

/-- With no turn pending the block steps on the state as it stands. -/
theorem BlockStep.step_eq_of_turns {s t : State} (h : BlockStep s t) (hturns : s.host.turns = []) :
    step s = .next t :=
  BlockStep.step_eq (by rw [isBlockTurn, hturns]) (by rwa [turnTaken_of_nil hturns])

/-- A beat of an operation in flight is still to come. -/
theorem idx_lt_of_inFlight {b : Block} {es : List Event} {v : List Byte} (hf : b.fcode = 0)
    (h : inFlightAfter b es v) : b.idx.toNat < (response b.rq v).length := by
  rw [inFlightAfter, if_pos hf] at h
  obtain ⟨-, hidx, -⟩ := h
  exact hidx

/-- An operation in flight runs to its last beat, one step a beat, if the payload space answers `v` all along. -/
theorem run_inFlight (n : Nat) {s : State} {es : List Event} {v : List Byte} (hhost : s.host.Willing)
    (hbusy : s.block.busy = true) (hcode : s.block.fcode = check s.block.rq) (hflight : inFlightAfter s.block es v)
    (hf : s.block.fcode = 0) (hans : ∀ i (hi : i < v.length), Memory.read s.host.payload i = v[i])
    (hn : s.block.idx.toNat + n = (response s.block.rq v).length) :
    ∃ t fs, Host.Core.run Sys2Proof.core n s = .next t ∧ t.block.busy = false ∧ t.host = s.host ∧
      t.trace = s.trace ++ fs ∧ ClosesResponse s.block.rq v (es ++ fs) := by
  induction n generalizing s es with
  | zero => exact absurd (idx_lt_of_inFlight hf hflight) (by omega)
  | succ n ih =>
    have hstep := (BlockStep.emit hhost.rst hbusy hhost.ready hf).step_eq_of_turns hhost.turns
    rw [run_succ n hstep]
    obtain ⟨_, fs, rfl, hfs, ⟨hbusy', hflight', hidx⟩ | ⟨hidle, hcloses, hend⟩⟩ :=
      emitByte_of_inFlight hbusy hf hcode hflight fun i hi _ => hans i hi
    · obtain ⟨t, gs, hrun, hidle, hthost, hgs, hcloses⟩ := ih (s := emitByte (operandsOf s.block.rq) s) hhost hbusy'
        hcode hflight' hf hans (by rw [hidx, emitByte_rq]; omega)
      exact ⟨t, fs ++ gs, hrun, hidle, hthost, by rw [hgs, hfs, List.append_assoc], by rwa [← List.append_assoc]⟩
    · obtain rfl : n = 0 := by omega
      exact ⟨_, fs, rfl, hidle, rfl, hfs, hcloses⟩

/-- Settles O49: ACCEPT, then the beats of the response, one step each. -/
theorem operationRunsToCompletion : Obligations.OperationRunsToCompletion := by
  intro s r rest hturns hrst hready hidle hreq v
  have hv : v.length = payloadReads r := by simp [v]
  refine ⟨length_response hv, ?_⟩
  have hstep := (BlockStep.accept hrst hidle r rest hreq).step_eq_of_turns hturns
  have hwilling : (accept r (s.withRequests rest)).host.Willing := ⟨hturns, hrst, hready⟩
  have hflight := accept_inFlightAfter r (s.withRequests rest) hv
  rw [Nat.add_comm, run_succ _ hstep]
  by_cases hcheck : check r = 0
  · obtain ⟨t, es, hrun, hdone, hhost, htrace, -, hbeats, hreads⟩ :=
      run_inFlight (response r v).length hwilling rfl rfl hflight hcheck (by simp [v]) (Nat.zero_add _)
    exact ⟨t, es, hrun, hdone, hhost, by rw [htrace, accept_trace, List.append_assoc]; rfl, hbeats, hreads⟩
  · have hnil : v = [] := List.eq_nil_of_length_eq_zero (hv.trans (if_pos hcheck))
    have hfault := (BlockStep.fault hwilling.rst rfl hwilling.ready hcheck).step_eq_of_turns hwilling.turns
    rw [response_of_fault hcheck, List.length_singleton, run_succ 0 hfault, hnil]
    exact ⟨_, [.beat { fault := true, data := (check r).setWidth 8, last := true }], rfl, rfl, rfl,
      List.append_assoc .., rfl, rfl⟩

end Sys2Proof.Machine
end

section
/-! PROOFS. `Check` as arithmetic on the word's number (42_sequencer.md R132). -/

namespace Sys2Proof.Machine

open Sys2Proof

/-- Settles O4: each test of the rule is a test on a field's number. -/
theorem checkIsTheRule : Obligations.CheckIsTheRule := by
  intro r
  have hlt := r.isLt
  have hop : r.toNat / 2 ^ 32 % 2 ^ 8 = r.toNat / 2 ^ 32 := Nat.mod_eq_of_lt (by omega)
  have hframe : bits 32 8 r = 0x01#8 ↔ r.toNat / 2 ^ 32 = 0x01 := by rw [bits_eq_iff, hop]; rfl
  have halert : bits 32 8 r = 0x02#8 ↔ r.toNat / 2 ^ 32 = 0x02 := by rw [bits_eq_iff, hop]; rfl
  have hplen : bits 0 8 r = 255#8 ↔ r.toNat % 2 ^ 8 = 255 := by rw [bits_eq_iff, pow_zero, Nat.div_one]; rfl
  have hband : 5#4 ≤ bits 24 4 r ↔ 5 ≤ r.toNat / 2 ^ 24 % 2 ^ 4 := by rw [BitVec.le_def, toNat_bits]; rfl
  have hstrength : 9#4 ≤ bits 20 4 r ↔ 9 ≤ r.toNat / 2 ^ 20 % 2 ^ 4 := by rw [BitVec.le_def, toNat_bits]; rfl
  simp only [check, checkCause, hframe, halert, hplen, hband, hstrength]
  split_ifs <;> rfl

end Sys2Proof.Machine
end

section
/-! PROOFS. The steps of an idle block, of a faulting one, and of the host (42_sequencer.md R130, R131, R133). -/

namespace Sys2Proof.Machine

open Sys2Proof

/-- Settles O7: the idle block's turn takes the offer, and that runs the decoded instruction. -/
theorem stepRunsOfferedInstruction : Obligations.StepRunsOfferedInstruction := by
  intro s r rest i hturn hrst hidle hreq hi
  calc step s = blockTurn (turnTaken s) := step_of_isBlockTurn hturn
    _ = acceptOffer r rest (turnTaken s) := blockTurn_of_offered hrst hidle hreq
    _ = exec i ((turnTaken s).withRequests rest) := by rw [acceptOffer, hi]

/-- A step of a busy block takes no word: the offer stays, and the last event, if there is one, is no ACCEPT. -/
theorem BlockStep.of_busy {s t : State} (h : BlockStep s t) (hbusy : s.block.busy = true) :
    t.host = s.host ∧ (t.trace = s.trace ∨ ∃ fs e, t.trace = s.trace ++ (fs ++ [e]) ∧ ∀ r, e ≠ .accept r) := by
  cases h with
  | reset => exact ⟨rfl, .inr ⟨[], .reset, rfl, fun _ => Event.noConfusion⟩⟩
  | stall => exact ⟨rfl, .inl rfl⟩
  | idle => exact ⟨rfl, .inl rfl⟩
  | accept _ hb => simp [hbusy] at hb
  | emit => exact ⟨rfl, .inr ⟨_, _, emitByte_trace _ _, fun _ => Event.noConfusion⟩⟩
  | fault => exact ⟨rfl, .inr ⟨[], _, emitFault_trace _, fun _ => Event.noConfusion⟩⟩

/-- Settles O14: an idle block's step is ACCEPT of the word on `req`; a busy block's is none. -/
theorem acceptLatchesAnyWord : Obligations.AcceptLatchesAnyWord := by
  constructor
  · intro s r rest hturn hrst hidle hreq
    exact BlockStep.step_eq hturn (.accept (s := turnTaken s) hrst hidle r rest hreq)
  · intro s t hturn hbusy hstep
    obtain ⟨hhost, htrace⟩ := (blockStep_of_step hturn hstep).of_busy hbusy
    refine ⟨hhost, fun r es hacc => ?_⟩
    rw [hacc, turnTaken_trace, List.append_assoc] at htrace
    rcases htrace with hnone | ⟨fs, e, hlast, hne⟩
    · simp at hnone
    · obtain ⟨-, he⟩ := List.append_inj' (List.append_cancel_left hlast) rfl
      exact hne r (List.singleton_inj.1 he).symm

/-- Settles O17: with `fcode` not 0 what is in flight, whatever its word, sends the fault beat. -/
theorem faultBeatEndsTheOperation : Obligations.FaultBeatEndsTheOperation := by
  refine ⟨fun s hbusy hf => by rw [ports_fault hbusy hf], fun i s hbusy hf => ?_,
    fun s hturn hrst hbusy hf hready => BlockStep.step_eq hturn (.fault hrst hbusy hready hf)⟩
  rw [exec_eq, runOperation_fault hbusy hf]
  rfl

/-- Settles O24: each case of `BlockStep` but RESET is one of the transitions. -/
theorem onlyTheseTransitions : Obligations.OnlyTheseTransitions := by
  intro s t hturn hrst hstep
  cases blockStep_of_step hturn hstep with
  | reset hr => simp [hrst] at hr
  | stall => exact .inl rfl
  | idle => exact .inl rfl
  | accept _ hidle => exact .inr (.inl ⟨hidle, rfl, rfl⟩)
  | emit _ hbusy _ hf =>
    have hbusy' : s.block.busy = true := hbusy
    refine .inr (.inr (.inl ⟨hbusy, hf, fun hidx => nextIdx_of_ne hidx, ?_⟩))
    rw [← isLast_iff, emitByte_eq]
    simp [hbusy']
  | fault _ hbusy _ hf => exact .inr (.inr (.inr ⟨hbusy, hf, rfl⟩))

/-- Settles O25: the host's turn is its move, and each move writes its own part. -/
theorem hostMovesLeaveTheBlockAlone : Obligations.HostMovesLeaveTheBlockAlone := by
  intro s m ts hts
  have htail : ts = s.host.turns.tail := by rw [hts, List.tail_cons]
  subst htail
  refine ⟨_, step_of_hostTurn hts, hostMove_block .., hostMove_trace .., hostMove_drawn .., ?_, ?_, ?_, ?_⟩
  · rintro rs rfl
    rfl
  · rintro b rfl
    rfl
  · rintro b rfl
    rfl
  · rintro a v rfl
    refine ⟨rfl, fun hwf b => (Memory.read_write hwf ..).trans ?_⟩
    simp only [BitVec.toNat_inj]

end Sys2Proof.Machine
end

section
/-! PROOFS. A run that is over (42_sequencer.md R140). -/

namespace Sys2Proof.Machine

open Sys2Proof

/-- A turn that offers no request, and no later turn that does. -/
theorem offersNoRequest_cons {u : Turn} {ts : List Turn} (h : offersNoRequest (u :: ts) = true) :
    (∀ rs, u = .host (.offer rs) → rs = []) ∧ offersNoRequest ts = true := by
  obtain ⟨hu, hts⟩ : _ ∧ _ := by simpa only [offersNoRequest, List.all_cons, Bool.and_eq_true] using h
  refine ⟨?_, hts⟩
  rintro rs rfl
  exact List.isEmpty_iff.1 hu

theorem runOver_iff (s : State) :
    runOver s = true ↔ s.block.busy = false ∧ s.host.requests = [] ∧ offersNoRequest s.host.turns = true := by
  simp [runOver, and_assoc]

/-- A turn taken leaves a run that is over as it was. -/
theorem runOver_turnTaken {s : State} (h : runOver s = true) : runOver (turnTaken s) = true := by
  obtain ⟨hidle, hreq, hturns⟩ := (runOver_iff s).1 h
  refine (runOver_iff _).2 ⟨hidle, hreq, ?_⟩
  rw [turnTaken_turns]
  cases hts : s.host.turns with
  | nil => rfl
  | cons u ts => exact (offersNoRequest_cons (hts ▸ hturns)).2

/-- A block whose run is over waits or resets. -/
theorem BlockStep.keeps_runOver {s t : State} (hs : BlockStep s t) (h : runOver s = true) :
    runOver t = true ∧ ∃ es, t.trace = s.trace ++ es ∧ ∀ e ∈ es, e = .reset := by
  obtain ⟨hidle, hreq, hturns⟩ := (runOver_iff s).1 h
  cases hs with
  | reset => exact ⟨(runOver_iff _).2 ⟨rfl, hreq, hturns⟩, [.reset], rfl, by simp⟩
  | stall | idle => exact ⟨h, [], by simp, by simp⟩
  | accept _ _ r rest hq => simp [hreq] at hq
  | emit _ hb => simp [hidle] at hb
  | fault _ hb => simp [hidle] at hb

/-- Settles O52: a host move puts no word on offer, and the block waits or resets. -/
theorem overRunStaysOver : Obligations.OverRunStaysOver := by
  intro s t hover hstep
  have htaken := runOver_turnTaken hover
  rcases cases_of_step hstep with ⟨m, ts, hts, rfl⟩ | ⟨_, hs⟩
  · obtain ⟨hidle, hreq, hturns⟩ := (runOver_iff _).1 htaken
    obtain ⟨-, -, hall⟩ := (runOver_iff s).1 hover
    obtain ⟨hoffer, -⟩ := offersNoRequest_cons (hts ▸ hall)
    refine ⟨(runOver_iff _).2 ⟨by rwa [hostMove_block], ?_, by rwa [hostMove_turns]⟩, [], by simp, by simp⟩
    cases m with
    | offer rs => exact hoffer rs rfl
    | ready | reset | store => exact hreq
  · exact hs.keeps_runOver htaken

end Sys2Proof.Machine
end

section
/-! PROOFS. The packet beat of a FRAME and of an ALERT in flight (42_sequencer.md R134, R135). -/

namespace Sys2Proof.Machine

open Sys2Proof

/-- What the payload space holds answers the next read. -/
theorem answersNext_payload (s : State) (n : Nat) :
    AnswersNext s ((List.range n).map (Memory.read s.host.payload)) := by
  intro i hi _
  simp

theorem headerBytes_alert (sel : Selection) : headerBytes (alertOperands sel) = [0xAA, 0xD8, 0xEA, 0x31, 0x09] :=
  (headerBytes_eq_packetHeader _).trans packetHeader_alert

/-- Settles O16: EMIT-BYTE of an ALERT's operands, on the payload of its selection. -/
theorem alertSendsItsByte : Obligations.AlertSendsItsByte := by
  intro s sel hbusy hf hband hstrength hk
  obtain ⟨p, hp, hlen⟩ := alertPayload_of_inRange hband hstrength
  refine ⟨p, hp, hlen, ?_⟩
  intro k b
  have hsup := alertOperands_supplied hp
  have hbyte : nextByte (alertOperands sel) [] s = b := by
    rw [nextByte, Operands.bytes, Operands.body, alertOperands_payloadOf hp, headerBytes_alert]
    rfl
  have hreads : nextReads ([] : List Byte).length s.block.idx.toNat b = [] := if_neg (by simp; omega)
  have hemit := hsup.emitByte_eq_next (s := s) hk (fun i hi => absurd hi (Nat.not_lt_zero i))
  rw [nextEvents, nextSum, hbyte, hreads] at hemit
  rw [exec_eq, runOperation_byte hbusy hf]
  refine congrArg Host.Outcome.next (hemit.trans ?_)
  rw [hbusy, hf]
  rfl

/-- The length byte of a FRAME (40_frame.md R83), in byte arithmetic. -/
theorem frameLengthByte (plen : Byte) : BitVec.ofNat 8 (plen.toNat + 1) = plen + 1 :=
  BitVec.eq_of_toNat_eq (by simp)

/-- The bytes of a FRAME by index, over the payload space `m` (42_sequencer.md R134). -/
theorem getD_bytes_frame (dest src msg sum : Byte) {plen : Byte} (hplen : plen.toNat ≤ 254) (m : Memory) {k : Nat}
    (hk : k ≤ plen.toNat + 6) :
    ((frameOperands dest src msg plen).bytes ((List.range plen.toNat).map (Memory.read m)) sum).getD k 0 =
      if k = 0 then 0xAA
      else if k = 1 then 0xD0 ||| (dest &&& 0xF)
      else if k = 2 then 0xE0 ||| (src &&& 0xF)
      else if k = 3 then msg
      else if k = 4 then plen + 1
      else if k ≤ 4 + plen.toNat then Memory.read m (k - 5)
      else if k = 5 + plen.toNat then sum
      else 0xAB := by
  have hsup := frameOperands_supplied dest src msg (v := (List.range plen.toNat).map (Memory.read m)) hplen (by simp)
  obtain hlt | ⟨h5, hle⟩ | rfl | rfl :
    k < 5 ∨ (5 ≤ k ∧ k ≤ 4 + plen.toNat) ∨ k = 5 + plen.toNat ∨ k = 6 + plen.toNat := by omega
  · rw [Operands.getD_bytes_header _ _ _ hlt, ← frameLengthByte]
    interval_cases k <;> rfl
  · rw [if_neg (by omega), if_neg (by omega), if_neg (by omega), if_neg (by omega), if_neg (by omega), if_pos hle,
      hsup.getD_bytes_read sum h5 (by simp; omega)]
    simp
  · rw [if_neg (by omega), if_neg (by omega), if_neg (by omega), if_neg (by omega), if_neg (by omega),
      if_neg (by omega), if_pos rfl]
    exact hsup.getD_bytes_sum sum
  · rw [if_neg (by omega), if_neg (by omega), if_neg (by omega), if_neg (by omega), if_neg (by omega),
      if_neg (by omega), if_neg (by omega)]
    exact hsup.getD_bytes_eof sum

/-- Settles O15: EMIT-BYTE of a FRAME's operands, the payload space answering. -/
theorem frameSendsItsByte : Obligations.FrameSendsItsByte := by
  intro s dest src msg plen hbusy hf hplen hk k L b
  have hshort : plen.toNat ≤ 254 := by
    have hne : plen.toNat ≠ 255 := mt (BitVec.eq_of_toNat_eq (y := 255#8)) hplen
    omega
  have hlen : ((List.range L).map (Memory.read s.host.payload)).length = L := by simp
  have hsup := frameOperands_supplied dest src msg hshort hlen
  have hbyte : nextByte (frameOperands dest src msg plen) ((List.range L).map (Memory.read s.host.payload)) s = b :=
    getD_bytes_frame _ _ _ _ hshort _ hk
  have hemit := hsup.emitByte_eq_next hk (answersNext_payload s L)
  rw [nextEvents, nextSum, hbyte, hlen, ← List.append_assoc] at hemit
  rw [exec_eq, runOperation_byte hbusy hf]
  refine congrArg Host.Outcome.next (hemit.trans ?_)
  rw [hbusy, hf]
  rfl

end Sys2Proof.Machine
end

section
/-! PROOFS. No instruction and no step ends in a fault or a refusal of the model (60_exceptions.md R159). -/

namespace Sys2Proof.Machine

open Sys2Proof

/-- Settles O9: `exec` answers the operation's next step, and a step is the host's move or a case of `BlockStep`. -/
theorem everyStepAnswersNext : Obligations.EveryStepAnswersNext := by
  constructor
  · intro i s
    exact ⟨runOperation (requestWord i) (instrOperands i) s, exec_eq i s⟩
  · intro s
    rcases step_cases s with ⟨m, _, _, hmove, _⟩ | ⟨_, t, hblock, _⟩
    · exact ⟨hostMove m (turnTaken s), hmove⟩
    · exact ⟨t, hblock⟩

end Sys2Proof.Machine
end

section
/-! PROOFS. The host's duty keeps the payload bytes, over any number of steps (70_reset_and_hazards.md R174). -/

namespace Sys2Proof.Machine

open Sys2Proof

/-- The block never touches the schedule. -/
theorem BlockStep.turns_eq {s t : State} (h : BlockStep s t) : t.host.turns = s.host.turns := by
  cases h <;> rfl

/-- Every step, of block or host, takes one turn off the schedule and adds none. -/
theorem step_turns {s t : State} (h : step s = .next t) : t.host.turns = s.host.turns.tail := by
  rcases cases_of_step h with ⟨m, _, _, rfl⟩ | ⟨_, hs⟩
  · rw [hostMove_turns, turnTaken_turns]
  · rw [hs.turns_eq, turnTaken_turns]

theorem keepsPayload_tail {n : Nat} {ts : List Turn} (h : keepsPayload n ts) : keepsPayload n ts.tail :=
  fun a v hmem => h a v (List.mem_of_mem_tail hmem)

/-- A move that is no store below `n` changes no byte below `n` (20_memory.md R36). -/
theorem hostMove_read_of_lt {n a : Nat} {m : HostMove} {s : State} (hwf : Memory.wf s.host.payload)
    (hduty : ∀ b v, m = .store b v → n ≤ b.toNat) (ha : a < n) :
    Memory.read (hostMove m s).host.payload a = Memory.read s.host.payload a := by
  cases m with
  | offer | ready | reset => rfl
  | store b v =>
    have hne : a ≠ b.toNat := Nat.ne_of_lt (Nat.lt_of_lt_of_le ha (hduty b v rfl))
    exact (Memory.read_write hwf b.toNat v a).trans (if_neg hne)

/-- One step under the duty: the block stores nothing, and the turn at hand, if the host's, is no store below `n`. -/
theorem step_read_of_keepsPayload {n a : Nat} {s t : State} (hwf : Memory.wf s.host.payload)
    (hduty : keepsPayload n s.host.turns) (hstep : step s = .next t) (ha : a < n) :
    Memory.read t.host.payload a = Memory.read s.host.payload a := by
  rcases cases_of_step hstep with ⟨m, ts, hts, rfl⟩ | ⟨_, hs⟩
  · refine hostMove_read_of_lt (s := turnTaken s) hwf ?_ ha
    rintro b v rfl
    exact hduty b v (hts ▸ List.mem_cons_self)
  · rw [hs.payload_eq, turnTaken_payload]

/-- Settles O26, by induction on the number of steps: each keeps the canonical form, the duty and the bytes. -/
theorem dutyKeepsThePayload : Obligations.DutyKeepsThePayload := by
  intro n k
  induction k with
  | zero =>
    intro s t _ _ hrun a _
    obtain rfl := Host.Outcome.next.inj hrun
    rfl
  | succ k ih =>
    intro s t hwf hduty hrun a ha
    obtain ⟨-, hnext⟩ := everyStepAnswersNext
    obtain ⟨u, hstep⟩ := hnext s
    have hduty' : keepsPayload n u.host.turns := by
      rw [step_turns hstep]
      exact keepsPayload_tail hduty
    calc Memory.read t.host.payload a
        = Memory.read u.host.payload a :=
          ih u t (stepKeepsMemoryCanonical s u hwf hstep) hduty' ((run_succ k hstep).symm.trans hrun) a ha
      _ = Memory.read s.host.payload a := step_read_of_keepsPayload hwf hduty hstep ha

end Sys2Proof.Machine
end

section
/-! PROOFS. Back-pressure and RESET: a turn of the block that sends no beat (70_reset_and_hazards.md R170, R176). -/

namespace Sys2Proof.Machine

open Sys2Proof

/-- Settles O18: with `out_ready` 0 the busy block waits, and the ports do not show the turn taken. -/
theorem backPressureHoldsTheBeat : Obligations.BackPressureHoldsTheBeat := by
  intro s hturn hrst hbusy hready
  exact ⟨BlockStep.step_eq hturn (.stall hrst hbusy hready), ports_turnTaken s⟩

/-- Settles O27: with `rst` asserted the block's turn is `resetStep`, whatever the block holds. -/
theorem resetStepIdlesTheBlock : Obligations.ResetStepIdlesTheBlock := by
  intro s hturn hrst
  exact ⟨resetStep (turnTaken s), BlockStep.step_eq hturn (.reset hrst), resetStep_busy _, resetStep_trace _,
    resetStep_host _, by simp, by simp⟩

end Sys2Proof.Machine
end
